-- ==== Sys2Proof/Word.lean ====
section
/-! DEFINITION. The widths of the spec's values (00_scope.md R8, R9): every value is an unsigned bit
vector; register numbers are the sixteen values a 4-bit field can take. -/

namespace Sys2Proof

/-- `u8`: a memory cell, a general register, a timer (R8). -/
abbrev Byte := BitVec 8

/-- `u12`: an address, `pc`, `I`, a call-stack entry (R8). -/
abbrev Addr := BitVec 12

/-- `u16`: an instruction word (R70). -/
abbrev Word := BitVec 16

/-- `u4`: the field `n` (R71). -/
abbrev Nibble := BitVec 4

/-- The number of a general register, 0..15 (R22, R72: all sixteen are legal). -/
abbrev Reg := Fin 16

/-- The sixteen key levels, bit `k` for key `k`, 1 = pressed (R250). -/
abbrev Keys := BitVec 16

end Sys2Proof
end

