-- ==== Sys2Proof/Syntax.lean ====
section
/-! DEFINITION. The 43 instructions of 30_encoding.md R74 (spec/opcode_table.json), one constructor per
row, in the table's order, with the fields the row's pattern names (R71, R72). The no-op words of R75
are no instruction and have no constructor: Decode.lean rejects them by name. -/

namespace Sys2Proof

inductive Instr where
  /-- `00E0` CLS (R220) -/
  | cls
  /-- `00EE` RET (R120) -/
  | ret
  /-- `00Cn` SCD n (R221) -/
  | scd (n : Nibble)
  /-- `00FB` SCR (R222) -/
  | scr
  /-- `00FC` SCL (R223) -/
  | scl
  /-- `00FD` EXIT (R107) -/
  | exit
  /-- `00FE` LOW (R224) -/
  | low
  /-- `00FF` HIGH (R225) -/
  | high
  /-- `1nnn` JP nnn (R121) -/
  | jp (nnn : Addr)
  /-- `2nnn` CALL nnn (R122) -/
  | call (nnn : Addr)
  /-- `3xkk` SE Vx, kk (R123) -/
  | seImm (x : Reg) (kk : Byte)
  /-- `4xkk` SNE Vx, kk (R124) -/
  | sneImm (x : Reg) (kk : Byte)
  /-- `5xy0` SE Vx, Vy (R125) -/
  | seReg (x y : Reg)
  /-- `6xkk` LD Vx, kk (R152) -/
  | ldImm (x : Reg) (kk : Byte)
  /-- `7xkk` ADD Vx, kk (R153) -/
  | addImm (x : Reg) (kk : Byte)
  /-- `8xy0` LD Vx, Vy (R154) -/
  | ldReg (x y : Reg)
  /-- `8xy1` OR Vx, Vy (R155) -/
  | orReg (x y : Reg)
  /-- `8xy2` AND Vx, Vy (R156) -/
  | andReg (x y : Reg)
  /-- `8xy3` XOR Vx, Vy (R157) -/
  | xorReg (x y : Reg)
  /-- `8xy4` ADD Vx, Vy (R158) -/
  | addReg (x y : Reg)
  /-- `8xy5` SUB Vx, Vy (R159) -/
  | subReg (x y : Reg)
  /-- `8xy6` SHR Vx, Vy (R160); `y` is encoded and not read -/
  | shr (x y : Reg)
  /-- `8xy7` SUBN Vx, Vy (R161) -/
  | subn (x y : Reg)
  /-- `8xyE` SHL Vx, Vy (R162); `y` is encoded and not read -/
  | shl (x y : Reg)
  /-- `9xy0` SNE Vx, Vy (R126) -/
  | sneReg (x y : Reg)
  /-- `Annn` LD I, nnn (R180) -/
  | ldI (nnn : Addr)
  /-- `Bnnn` JP V0, nnn (R127) -/
  | jpV0 (nnn : Addr)
  /-- `Cxkk` RND Vx, kk (R163) -/
  | rnd (x : Reg) (kk : Byte)
  /-- `Dxyn` DRW Vx, Vy, n (R226) -/
  | drw (x y : Reg) (n : Nibble)
  /-- `Ex9E` SKP Vx (R253) -/
  | skp (x : Reg)
  /-- `ExA1` SKNP Vx (R254) -/
  | sknp (x : Reg)
  /-- `Fx07` LD Vx, DT (R255) -/
  | ldFromDt (x : Reg)
  /-- `Fx0A` LD Vx, K (R256) -/
  | ldKey (x : Reg)
  /-- `Fx15` LD DT, Vx (R257) -/
  | ldDt (x : Reg)
  /-- `Fx18` LD ST, Vx (R258) -/
  | ldSt (x : Reg)
  /-- `Fx1E` ADD I, Vx (R181) -/
  | addI (x : Reg)
  /-- `Fx29` LD F, Vx (R182) -/
  | ldFont (x : Reg)
  /-- `Fx30` LD HF, Vx (R183) -/
  | ldHFont (x : Reg)
  /-- `Fx33` LD B, Vx (R184) -/
  | bcd (x : Reg)
  /-- `Fx55` LD [I], Vx (R185) -/
  | storeRegs (x : Reg)
  /-- `Fx65` LD Vx, [I] (R186) -/
  | loadRegs (x : Reg)
  /-- `Fx75` LD R, Vx (R187) -/
  | storeBank (x : Reg)
  /-- `Fx85` LD Vx, R (R188) -/
  | loadBank (x : Reg)
  deriving DecidableEq, Repr

end Sys2Proof
end

