-- ==== Sys2Proof/WellFormed.lean ====
section
/-! DEFINITION. What a well-formed instruction and a well-formed program image are.

An instruction's operands are exact: a register number is one of sixteen, and `n`, `kk` and `nnn` have
their field's width (30_encoding.md R71, R72: all sixteen register numbers legal, no operand value
reserved). So no ill-formed term of `Instr` exists and the check on an instruction refuses nothing. The
check with something to refuse is the one on a program image: R323 bounds its length. -/

namespace Sys2Proof

/-- Every instruction is well formed: the fields' types leave nothing to check (R72). -/
def Instr.wellFormed (_ : Instr) : Bool := true

/-- `MAX_ROM` (R8): 3584 bytes, 0x200 to 0xFFF. -/
def maxRom : Nat := 3584

/-- A program image that `load` admits: at most `MAX_ROM` bytes (R323, U14). -/
def romWellFormed (bytes : List Byte) : Bool := decide (bytes.length ≤ maxRom)

end Sys2Proof
end

