-- ==== Sys2Proof/Decode.lean ====
section
/-! DEFINITION. The decoder, total on every word (30_encoding.md R71 to R77, R80); after it the opcode map
of R74 as rows of match and mask, and the encoder. Encodings that the spec marks as general knowledge
(G2 to G4) are followed as R74 gives them: PRESUMED, unsafe, log entry 13. -/

namespace Sys2Proof

/-- What a word decodes to: an instruction of R74, or, rejected by name, a no-op word of R75. -/
inductive Decoded where
  | instr (i : Instr)
  | noOp
  deriving DecidableEq, Repr

/-! ## The fields of a word (R71) -/

/-- `p`, bits 15-12: the opcode family. -/
def fieldP (w : Word) : BitVec 4 := w.extractLsb' 12 4

/-- `x`, bits 11-8. -/
def fieldX (w : Word) : Reg := (w.extractLsb' 8 4).toFin

/-- `y`, bits 7-4. -/
def fieldY (w : Word) : Reg := (w.extractLsb' 4 4).toFin

/-- `n`, bits 3-0. -/
def fieldN (w : Word) : Nibble := w.extractLsb' 0 4

/-- `kk`, bits 7-0. -/
def fieldKK (w : Word) : Byte := w.extractLsb' 0 8

/-- `nnn`, bits 11-0. -/
def fieldNNN (w : Word) : Addr := w.extractLsb' 0 12

/-! ## Dispatch (R73) -/

/-- Family 0: the whole word, or bits 15-4 = 0x00C for `00Cn`; every other word is a no-op. -/
def decode0 (w : Word) : Decoded :=
  if w.extractLsb' 4 12 = 0x00C#12 then .instr (.scd (fieldN w))
  else if w = 0x00E0#16 then .instr .cls
  else if w = 0x00EE#16 then .instr .ret
  else if w = 0x00FB#16 then .instr .scr
  else if w = 0x00FC#16 then .instr .scl
  else if w = 0x00FD#16 then .instr .exit
  else if w = 0x00FE#16 then .instr .low
  else if w = 0x00FF#16 then .instr .high
  else .noOp

/-- Family 8: the sub-opcode `n`. -/
def decode8 (w : Word) : Decoded :=
  let x := fieldX w
  let y := fieldY w
  if fieldN w = 0x0#4 then .instr (.ldReg x y)
  else if fieldN w = 0x1#4 then .instr (.orReg x y)
  else if fieldN w = 0x2#4 then .instr (.andReg x y)
  else if fieldN w = 0x3#4 then .instr (.xorReg x y)
  else if fieldN w = 0x4#4 then .instr (.addReg x y)
  else if fieldN w = 0x5#4 then .instr (.subReg x y)
  else if fieldN w = 0x6#4 then .instr (.shr x y)
  else if fieldN w = 0x7#4 then .instr (.subn x y)
  else if fieldN w = 0xE#4 then .instr (.shl x y)
  else .noOp

/-- Family E: the sub-opcode `kk`. -/
def decodeE (w : Word) : Decoded :=
  if fieldKK w = 0x9E#8 then .instr (.skp (fieldX w))
  else if fieldKK w = 0xA1#8 then .instr (.sknp (fieldX w))
  else .noOp

/-- Family F: the sub-opcode `kk`. -/
def decodeF (w : Word) : Decoded :=
  let x := fieldX w
  if fieldKK w = 0x07#8 then .instr (.ldFromDt x)
  else if fieldKK w = 0x0A#8 then .instr (.ldKey x)
  else if fieldKK w = 0x15#8 then .instr (.ldDt x)
  else if fieldKK w = 0x18#8 then .instr (.ldSt x)
  else if fieldKK w = 0x1E#8 then .instr (.addI x)
  else if fieldKK w = 0x29#8 then .instr (.ldFont x)
  else if fieldKK w = 0x30#8 then .instr (.ldHFont x)
  else if fieldKK w = 0x33#8 then .instr (.bcd x)
  else if fieldKK w = 0x55#8 then .instr (.storeRegs x)
  else if fieldKK w = 0x65#8 then .instr (.loadRegs x)
  else if fieldKK w = 0x75#8 then .instr (.storeBank x)
  else if fieldKK w = 0x85#8 then .instr (.loadBank x)
  else .noOp

/-- The instruction a word stands for, or its rejection as a no-op (R73, R75, R80). -/
def decode (w : Word) : Decoded :=
  let x := fieldX w
  let y := fieldY w
  let kk := fieldKK w
  let nnn := fieldNNN w
  if fieldP w = 0x0#4 then decode0 w
  else if fieldP w = 0x1#4 then .instr (.jp nnn)
  else if fieldP w = 0x2#4 then .instr (.call nnn)
  else if fieldP w = 0x3#4 then .instr (.seImm x kk)
  else if fieldP w = 0x4#4 then .instr (.sneImm x kk)
  else if fieldP w = 0x5#4 then (if fieldN w = 0x0#4 then .instr (.seReg x y) else .noOp)
  else if fieldP w = 0x6#4 then .instr (.ldImm x kk)
  else if fieldP w = 0x7#4 then .instr (.addImm x kk)
  else if fieldP w = 0x8#4 then decode8 w
  else if fieldP w = 0x9#4 then (if fieldN w = 0x0#4 then .instr (.sneReg x y) else .noOp)
  else if fieldP w = 0xA#4 then .instr (.ldI nnn)
  else if fieldP w = 0xB#4 then .instr (.jpV0 nnn)
  else if fieldP w = 0xC#4 then .instr (.rnd x kk)
  else if fieldP w = 0xD#4 then .instr (.drw x y (fieldN w))
  else if fieldP w = 0xE#4 then decodeE w
  else decodeF w

/-- The word of two consecutive bytes, the first byte its bits 15-8 (R53, R70). -/
def wordOfBytes (hi lo : Byte) : Word := hi ++ lo

/-- Decoding the two bytes of an instruction as memory holds them. -/
def decodeBytes (hi lo : Byte) : Decoded := decode (wordOfBytes hi lo)

/-- The first byte of a word as memory holds it (R53). -/
def highByte (w : Word) : Byte := w.extractLsb' 8 8

/-- The second byte of a word as memory holds it (R53). -/
def lowByte (w : Word) : Byte := w.extractLsb' 0 8

/-- The word of a row of spec/opcode_table.json: the low `nbits` bits of `w`, every bit above them 0. -/
def tableWord (nbits w : Nat) : Word := BitVec.ofNat 16 (w % 2 ^ nbits)

/-- What the decoder reads from a word of the opcode table, laid out as two bytes in memory. -/
def decodeTableWord (nbits w : Nat) : Option Instr :=
  match decodeBytes (highByte (tableWord nbits w)) (lowByte (tableWord nbits w)) with
  | .instr i => some i
  | .noOp => none

/-! ## The encoder (R71, R74) -/

/-- A word of the fields `p`, `nnn`. -/
def assembleNNN (p : BitVec 4) (nnn : Addr) : Word := p ++ nnn

/-- A word of the fields `p`, `x`, `kk`. -/
def assembleXKK (p : BitVec 4) (x : Reg) (kk : Byte) : Word := p ++ (BitVec.ofFin x : BitVec 4) ++ kk

/-- A word of the fields `p`, `x`, `y`, `n`. -/
def assembleXYN (p : BitVec 4) (x y : Reg) (n : Nibble) : Word :=
  p ++ (BitVec.ofFin x : BitVec 4) ++ (BitVec.ofFin y : BitVec 4) ++ n

/-- The word of an instruction (R74). -/
def encode (i : Instr) : Word :=
  match i with
  | .cls => 0x00E0#16
  | .ret => 0x00EE#16
  | .scd n => 0x00C#12 ++ n
  | .scr => 0x00FB#16
  | .scl => 0x00FC#16
  | .exit => 0x00FD#16
  | .low => 0x00FE#16
  | .high => 0x00FF#16
  | .jp nnn => assembleNNN 0x1#4 nnn
  | .call nnn => assembleNNN 0x2#4 nnn
  | .seImm x kk => assembleXKK 0x3#4 x kk
  | .sneImm x kk => assembleXKK 0x4#4 x kk
  | .seReg x y => assembleXYN 0x5#4 x y 0x0#4
  | .ldImm x kk => assembleXKK 0x6#4 x kk
  | .addImm x kk => assembleXKK 0x7#4 x kk
  | .ldReg x y => assembleXYN 0x8#4 x y 0x0#4
  | .orReg x y => assembleXYN 0x8#4 x y 0x1#4
  | .andReg x y => assembleXYN 0x8#4 x y 0x2#4
  | .xorReg x y => assembleXYN 0x8#4 x y 0x3#4
  | .addReg x y => assembleXYN 0x8#4 x y 0x4#4
  | .subReg x y => assembleXYN 0x8#4 x y 0x5#4
  | .shr x y => assembleXYN 0x8#4 x y 0x6#4
  | .subn x y => assembleXYN 0x8#4 x y 0x7#4
  | .shl x y => assembleXYN 0x8#4 x y 0xE#4
  | .sneReg x y => assembleXYN 0x9#4 x y 0x0#4
  | .ldI nnn => assembleNNN 0xA#4 nnn
  | .jpV0 nnn => assembleNNN 0xB#4 nnn
  | .rnd x kk => assembleXKK 0xC#4 x kk
  | .drw x y n => assembleXYN 0xD#4 x y n
  | .skp x => assembleXKK 0xE#4 x 0x9E#8
  | .sknp x => assembleXKK 0xE#4 x 0xA1#8
  | .ldFromDt x => assembleXKK 0xF#4 x 0x07#8
  | .ldKey x => assembleXKK 0xF#4 x 0x0A#8
  | .ldDt x => assembleXKK 0xF#4 x 0x15#8
  | .ldSt x => assembleXKK 0xF#4 x 0x18#8
  | .addI x => assembleXKK 0xF#4 x 0x1E#8
  | .ldFont x => assembleXKK 0xF#4 x 0x29#8
  | .ldHFont x => assembleXKK 0xF#4 x 0x30#8
  | .bcd x => assembleXKK 0xF#4 x 0x33#8
  | .storeRegs x => assembleXKK 0xF#4 x 0x55#8
  | .loadRegs x => assembleXKK 0xF#4 x 0x65#8
  | .storeBank x => assembleXKK 0xF#4 x 0x75#8
  | .loadBank x => assembleXKK 0xF#4 x 0x85#8

/-! ## The opcode map as the spec tabulates it (R74) -/

/-- A row's `match` and `mask`: a word `w` is the instruction when `w AND mask = match`. -/
structure OpcodeRow where
  pattern : Word
  mask : Word
  deriving DecidableEq, Repr

/-- Whether a word is the row's instruction (R74). -/
def rowMatches (row : OpcodeRow) (w : Word) : Bool := w &&& row.mask == row.pattern

/-- The row of R74 that an instruction belongs to. -/
def rowOf (i : Instr) : OpcodeRow :=
  match i with
  | .cls => ⟨0x00E0#16, 0xFFFF#16⟩
  | .ret => ⟨0x00EE#16, 0xFFFF#16⟩
  | .scd _ => ⟨0x00C0#16, 0xFFF0#16⟩
  | .scr => ⟨0x00FB#16, 0xFFFF#16⟩
  | .scl => ⟨0x00FC#16, 0xFFFF#16⟩
  | .exit => ⟨0x00FD#16, 0xFFFF#16⟩
  | .low => ⟨0x00FE#16, 0xFFFF#16⟩
  | .high => ⟨0x00FF#16, 0xFFFF#16⟩
  | .jp _ => ⟨0x1000#16, 0xF000#16⟩
  | .call _ => ⟨0x2000#16, 0xF000#16⟩
  | .seImm _ _ => ⟨0x3000#16, 0xF000#16⟩
  | .sneImm _ _ => ⟨0x4000#16, 0xF000#16⟩
  | .seReg _ _ => ⟨0x5000#16, 0xF00F#16⟩
  | .ldImm _ _ => ⟨0x6000#16, 0xF000#16⟩
  | .addImm _ _ => ⟨0x7000#16, 0xF000#16⟩
  | .ldReg _ _ => ⟨0x8000#16, 0xF00F#16⟩
  | .orReg _ _ => ⟨0x8001#16, 0xF00F#16⟩
  | .andReg _ _ => ⟨0x8002#16, 0xF00F#16⟩
  | .xorReg _ _ => ⟨0x8003#16, 0xF00F#16⟩
  | .addReg _ _ => ⟨0x8004#16, 0xF00F#16⟩
  | .subReg _ _ => ⟨0x8005#16, 0xF00F#16⟩
  | .shr _ _ => ⟨0x8006#16, 0xF00F#16⟩
  | .subn _ _ => ⟨0x8007#16, 0xF00F#16⟩
  | .shl _ _ => ⟨0x800E#16, 0xF00F#16⟩
  | .sneReg _ _ => ⟨0x9000#16, 0xF00F#16⟩
  | .ldI _ => ⟨0xA000#16, 0xF000#16⟩
  | .jpV0 _ => ⟨0xB000#16, 0xF000#16⟩
  | .rnd _ _ => ⟨0xC000#16, 0xF000#16⟩
  | .drw _ _ _ => ⟨0xD000#16, 0xF000#16⟩
  | .skp _ => ⟨0xE09E#16, 0xF0FF#16⟩
  | .sknp _ => ⟨0xE0A1#16, 0xF0FF#16⟩
  | .ldFromDt _ => ⟨0xF007#16, 0xF0FF#16⟩
  | .ldKey _ => ⟨0xF00A#16, 0xF0FF#16⟩
  | .ldDt _ => ⟨0xF015#16, 0xF0FF#16⟩
  | .ldSt _ => ⟨0xF018#16, 0xF0FF#16⟩
  | .addI _ => ⟨0xF01E#16, 0xF0FF#16⟩
  | .ldFont _ => ⟨0xF029#16, 0xF0FF#16⟩
  | .ldHFont _ => ⟨0xF030#16, 0xF0FF#16⟩
  | .bcd _ => ⟨0xF033#16, 0xF0FF#16⟩
  | .storeRegs _ => ⟨0xF055#16, 0xF0FF#16⟩
  | .loadRegs _ => ⟨0xF065#16, 0xF0FF#16⟩
  | .storeBank _ => ⟨0xF075#16, 0xF0FF#16⟩
  | .loadBank _ => ⟨0xF085#16, 0xF0FF#16⟩

/-- The 43 rows of R74, in its order. -/
def opcodeMap : List OpcodeRow :=
  [rowOf .cls, rowOf .ret, rowOf (.scd 0), rowOf .scr, rowOf .scl, rowOf .exit, rowOf .low, rowOf .high,
    rowOf (.jp 0), rowOf (.call 0), rowOf (.seImm 0 0), rowOf (.sneImm 0 0), rowOf (.seReg 0 0),
    rowOf (.ldImm 0 0), rowOf (.addImm 0 0)] ++
  [rowOf (.ldReg 0 0), rowOf (.orReg 0 0), rowOf (.andReg 0 0), rowOf (.xorReg 0 0), rowOf (.addReg 0 0),
    rowOf (.subReg 0 0), rowOf (.shr 0 0), rowOf (.subn 0 0), rowOf (.shl 0 0), rowOf (.sneReg 0 0),
    rowOf (.ldI 0), rowOf (.jpV0 0), rowOf (.rnd 0 0), rowOf (.drw 0 0 0)] ++
  [rowOf (.skp 0), rowOf (.sknp 0), rowOf (.ldFromDt 0), rowOf (.ldKey 0), rowOf (.ldDt 0), rowOf (.ldSt 0),
    rowOf (.addI 0), rowOf (.ldFont 0), rowOf (.ldHFont 0), rowOf (.bcd 0), rowOf (.storeRegs 0),
    rowOf (.loadRegs 0), rowOf (.storeBank 0), rowOf (.loadBank 0)]

end Sys2Proof
end

