-- ==== Sys2Proof/Config.lean ====
section
/-! DEFINITION. What the spec leaves to the implementation: the fonts as constants without a body, the free
inputs as constants without a body applied to a counter of State, and the parameters for which the spec takes a
value as a structure, of which a state holds one (log entry 29). The values taken stand in
Machine/Parameters.lean. -/

namespace Sys2Proof

/-- `FONT_SMALL`, byte `k` of 80 (R8, R211, U10): a parameter whose suggested value a model must not
assume. Free; log entry 2. -/
opaque Config.fontSmall : Nat → Byte

/-- `FONT_LARGE`, byte `k` of 160 (R8, R211, D16): a parameter left OPEN. Free; log entry 2. -/
opaque Config.fontLarge : Nat → Byte

/-- The key levels of the `n`-th free sample (R250, U8: 16 arbitrary bits per step). Free; log entry 7. -/
opaque Config.keyLevels : Nat → Keys

/-- The random byte of the `n`-th free sample (R290, U7: an arbitrary `u8`). Free; log entry 7. -/
opaque Config.randomByte : Nat → Byte

/-- `VF_DEST_ORDER` (R8, U3): which write stays in `VF` when `x = 15` in `8xy4`..`8xyE`. -/
inductive VfDestOrder where
  | flagWins
  | resultWins
  deriving DecidableEq, Repr

/-- `I_INCREMENT` (R8, U4): whether `Fx55`/`Fx65` leave `I` or add `x + 1` to it. -/
inductive IIncrement where
  | none
  | xPlusOne
  deriving DecidableEq, Repr

/-- The rows of R8 marked "parameter" for which the spec takes a value, as arguments of the model. -/
structure Parameters where
  /-- `EXT_FONT_BASE` (R8, R183, R322, U11) -/
  extFontBase : Addr
  /-- `TIMER_QUANTUM_MS` (R8, R286, U13) is the rational `quantumNum / quantumDen`: its numerator -/
  quantumNum : Nat
  /-- the denominator of `TIMER_QUANTUM_MS` -/
  quantumDen : Nat
  /-- `VF_DEST_ORDER` (R8, R151, U3) -/
  vfDestOrder : VfDestOrder
  /-- `I_INCREMENT` (R8, R189, U4) -/
  iIncrement : IIncrement
  deriving DecidableEq, Repr

end Sys2Proof
end

