-- ==== Sys2Proof/Machine/Parameters.lean ====
section
/-! DEFINITION. The constants of 00_scope.md R8 that the document fixes, and the values the spec takes for the
parameters it does not. -/

namespace Sys2Proof.Machine

/-- `FONT_BASE` (R8, R182). -/
def fontBase : Nat := 0x050

/-- `FONT_GLYPH_BYTES` (R8): 16 glyphs of 5 bytes. -/
def fontGlyphBytes : Nat := 5

/-- `EXT_FONT_GLYPH_BYTES` (R8): 16 glyphs of 10 bytes. -/
def extFontGlyphBytes : Nat := 10

/-- `PROGRAM_START` (R8, R323). -/
def programStart : Nat := 0x200

/-- `SCROLL_COLS` (R8): the columns `00FB` and `00FC` move by. -/
def scrollCols : Nat := 4

/-- The values the spec takes for the rows of R8 marked "parameter": `EXT_FONT_BASE` 0x0A0 (D15, log entry 3),
`TIMER_QUANTUM_MS` 50/3 (D18, log entry 4), `VF_DEST_ORDER` flag-wins (D4, log entry 5), `I_INCREMENT` none (D6, log
entry 6). UNVERIFIED (the spec's own decisions), unsafe for a claim about runs from reset; `State.reset` holds
them, and no transaction changes a state's parameters. -/
def parametersTaken : Parameters where
  extFontBase := 0x0A0
  quantumNum := 50
  quantumDen := 3
  vfDestOrder := .flagWins
  iIncrement := .none

end Sys2Proof.Machine
end

