-- ==== Sys2Proof/Machine/State.lean ====
section
/-! DEFINITION. The machine's state as plain data (10_state.md R20 to R41), the host's transactions
(60_exceptions.md R291), the reasons a transaction is refused, and the state right after `init`
(70_reset_and_hazards.md R321). -/

namespace Sys2Proof.Machine

/-- `WAIT` (R33, R251): `Running` or `Waiting(r)`, `r` the register that receives the next key. -/
inductive KeyWait where
  | running
  | waiting (r : Reg)
  deriving DecidableEq, Repr

/-- Where the host stands in the boot order (R323, R324, R325): before the first `init`; after an `init`
and before the first `step` of that initialization; after that step. The model's own; log entry 9. -/
inductive Phase where
  | beforeInit
  | loadable
  | started
  deriving DecidableEq, Repr

/-- The host's read accessors and the speaker output (R291). -/
inductive Port where
  | spk
  | geometry
  | pixel (c r : Nat)
  | dt
  | st
  | haltRequested
  deriving DecidableEq, Repr

/-- What a read gives (R291): one bit, one byte, or the pair (W, H). -/
inductive PortValue where
  | bit (b : Bool)
  | byte (b : Byte)
  | size (w h : Nat)
  deriving DecidableEq, Repr

/-- One transaction the host invokes (R6, R291, R292). A `step` carries the levels of its two input
ports, or `none`: then they are free values (log entry 7). -/
inductive Transaction where
  | init
  | load (bytes : List Byte)
  | step (inputs : Option (Keys × Byte))
  | updateTime (deltaMs : Nat)
  | setKeyPoller
  | setSpeaker
  | read (port : Port)
  deriving DecidableEq, Repr

/-- `M` (R21) as data: the cells whose byte differs from the content after `init`, addresses strictly
rising (log entry 1). -/
abbrev Memory := List Host.Cell

/-- `D` (R31, R210) as data: the indexes 0..8191 of the cells that hold 1, strictly rising (log entry 21). -/
abbrev Display := List Nat

/-- There is no fault: "No exceptions propagate out of `step`" (R280), no memory access can fault (R51).
The type has no constructor, so nobody raises one: neither safe nor unsafe. -/
inductive Fault where
  deriving DecidableEq, Repr

/-- The reasons a transaction is refused. No instruction is refused. -/
inductive Refusal where
  /-- Raised only by an arm of `exec` for an instruction without a meaning; no arm raises it. Safe. -/
  | notModelled (mnemonic : String)
  /-- Raised by `load`, `step`, `update_time` and the reads before the first `init` (R40, R325). Safe: the
  spec defines no behaviour there and asks a model to refuse. -/
  | beforeInit
  /-- Raised by `step` before a key poller is installed (R292). Safe, as above. -/
  | noKeyPoller
  /-- Raised by `load` of more than 3584 bytes (R323, U14). Safe: rejected before it reaches the core. -/
  | romTooLong
  /-- Raised by `load` after the first `step` of an initialization (R323, D26). Safe, as above. -/
  | loadAfterStart
  deriving DecidableEq, Repr

/-- The Machine (R20: the first fifteen fields), then the model's own fields: the input ports as the
current step sampled them, the counter of free samples, the boot phase, the poller's wiring, the transactions
the host invokes next, and the parameters of the implementation, which no transaction changes. -/
structure State where
  /-- `M[0..4095]` (R21) -/
  mem : Memory
  /-- `V[0..15]`, `V[15]` the flag `VF` (R22, R23) -/
  v : Vector Byte 16
  /-- the program counter (R25) -/
  pc : Addr
  /-- the address register `I` (R26) -/
  i : Addr
  /-- the call stack `S[0..15]` (R27) -/
  stack : Vector Addr 16
  /-- `SP`, the count of entries, 0..16 (R27, R28) -/
  sp : Fin 17
  /-- the delay timer `DT` (R29) -/
  dt : Byte
  /-- the sound timer `ST` (R30) -/
  st : Byte
  /-- the display buffer `D[0..8191]` (R31) -/
  display : Display
  /-- `EXT`, extended mode (R32) -/
  ext : Bool
  /-- `WAIT` (R33) -/
  wait : KeyWait
  /-- the persistent bank `R[0..7]` (R34) -/
  r : Vector Byte 8
  /-- `HALT` (R35) -/
  halt : Bool
  /-- the timer accumulator (R36) in units of 1 ms / `quantumDen`: with the quantum 50/3 this is `3 × ACC` -/
  acc : Nat
  /-- `SPK`, the speaker-enable latch (R37) -/
  spk : Bool
  /-- the port `keys[15:0]` as the current step sampled it (R250) -/
  keys : Keys
  /-- the port `rnd[7:0]` as the current step sampled it (R290) -/
  rnd : Byte
  /-- how many free samples of the ports have been taken -/
  draws : Nat
  /-- which transactions the boot order admits -/
  phase : Phase
  /-- whether the host has installed the key poller (R292) -/
  keyPoller : Bool
  /-- the transactions the host invokes next, oldest first -/
  agenda : List Transaction
  /-- the parameters of R8, the same for the whole life of a machine (log entry 29) -/
  params : Parameters
  deriving DecidableEq, Repr

/-- What a transaction or an instruction answers. -/
abbrev Result := Host.Outcome State Fault Refusal

/-- The state after `init` (R321). The model's own fields are DESIGN CHOICE: ports 0 and no free sample taken
(log entry 7), `load` still admitted (9), the poller installed (10), no transaction fixed (8); and the parameters
at the values the spec takes (29). Unsafe only where a claim rests on those values. -/
def State.reset : State where
  mem := []
  v := Vector.replicate 16 0
  pc := 0x200
  i := 0
  stack := Vector.replicate 16 0
  sp := 0
  dt := 0
  st := 0
  display := []
  ext := false
  wait := .running
  r := Vector.replicate 8 0
  halt := false
  acc := 0
  spk := false
  keys := 0
  rnd := 0
  draws := 0
  phase := .loadable
  keyPoller := true
  agenda := []
  params := parametersTaken

end Sys2Proof.Machine
end

