-- ==== Sys2Proof/Machine/Ops.lean ====
section
/-! DEFINITION. The named operations every meaning is written over: registers, memory, the call stack, the
display buffer's primitives, the bulk loop, instruction fetch. The hardware raises no exception and has no
return from one (60_exceptions.md R280, R284), so there is no operation that takes or leaves one. -/

namespace Sys2Proof.Machine

/-! ## General registers, pc, I (R22, R25, R26) -/

/-- `V[x]`. -/
def State.getV (s : State) (x : Reg) : Byte := s.v[x]

/-- `V[x] <- b`. -/
def State.setV (s : State) (x : Reg) (b : Byte) : State := { s with v := s.v.set x b }

/-- `pc <- a`. -/
def State.setPc (s : State) (a : Addr) : State := { s with pc := a }

/-- `pc <- pc + 2`, mod 4096 (R25): the pre-advance of R103 and the skips of R123 to R126, R253, R254. -/
def State.advancePc (s : State) : State := s.setPc (s.pc + 2)

/-- `I <- a`. -/
def State.setI (s : State) (a : Addr) : State := { s with i := a }

/-! ## Memory (R21, R51, R60) -/

/-- How far cell `a` lies above `EXT_FONT_BASE`, mod 4096 (R51). -/
def largeFontOffset (base : Addr) (a : Nat) : Nat := (BitVec.ofNat 12 a - base).toNat

/-- The content of cell `a` after `init` (R60, R321, R322) with `EXT_FONT_BASE` at `base`: the two fonts and zeros.
This is what an unlisted address reads as. The large font is copied last (R322; log entry 3). -/
def Memory.unlisted (base : Addr) (a : Nat) : Byte :=
  if largeFontOffset base a < 16 * extFontGlyphBytes then Config.fontLarge (largeFontOffset base a)
  else if fontBase ≤ a ∧ a < fontBase + 16 * fontGlyphBytes then Config.fontSmall (a - fontBase)
  else 0

/-- The byte at an address: the listed one, else the content after `init`. -/
def Memory.read (base : Addr) (m : Memory) (a : Nat) : Byte :=
  match m with
  | [] => Memory.unlisted base a
  | cell :: rest => if cell.1 = a then cell.2 else Memory.read base rest a

/-- A new cell put before the first cell of a higher address. -/
def Memory.insert (m : Memory) (a : Nat) (b : Byte) : Memory :=
  match m with
  | [] => [(a, b)]
  | cell :: rest => if a < cell.1 then (a, b) :: cell :: rest else cell :: Memory.insert rest a b

/-- A byte written: the old entry of the address goes, and a new one comes unless the byte is what the
unlisted address reads as. -/
def Memory.write (base : Addr) (m : Memory) (a : Nat) (b : Byte) : Memory :=
  let others := m.filter (fun cell => cell.1 ≠ a)
  if b = Memory.unlisted base a then others else Memory.insert others a b

/-- The canonical form: addresses strictly rising and below 4096, no entry equal to what the unlisted
address reads as. -/
abbrev Memory.wf (base : Addr) (m : Memory) : Prop :=
  m.Pairwise (fun c d => c.1 < d.1) ∧ ∀ c ∈ m, c.1 < 4096 ∧ c.2 ≠ Memory.unlisted base c.1

/-- `MemRead(a, 1)` (R10, R51: the address is 12 bits wide). -/
def State.readByte (s : State) (a : Addr) : Byte := Memory.read s.params.extFontBase s.mem a.toNat

/-- `MemWrite(a, 1, b)` (R10, R51). -/
def State.writeByte (s : State) (a : Addr) (b : Byte) : State :=
  { s with mem := Memory.write s.params.extFontBase s.mem a.toNat b }

/-- `for k in 0..m: body k`, in ascending order (R185 to R188). -/
def loopTo (m : Nat) (body : Nat → State → State) (s : State) : State :=
  match m with
  | 0 => body 0 s
  | k + 1 => body (k + 1) (loopTo k body s)

/-- `load`'s loop (R323): the bytes written one after another from address `a` on. -/
def State.writeBytes (s : State) (a : Addr) (bytes : List Byte) : State :=
  match bytes with
  | [] => s
  | b :: rest => (s.writeByte a b).writeBytes (a + 1) rest

/-! ## Call stack (R27) -/

/-- `S[SP] <- a; SP <- SP + 1`, skipped on a full stack (R122). -/
def State.push (s : State) (a : Addr) : State :=
  if h : s.sp.val < 16 then { s with stack := s.stack.set s.sp.val a, sp := ⟨s.sp.val + 1, by omega⟩ }
  else s

/-- `SP <- SP - 1; pc <- S[SP]`, nothing on an empty stack (R120). -/
def State.popToPc (s : State) : State :=
  if h : 0 < s.sp.val then { s with sp := ⟨s.sp.val - 1, by omega⟩, pc := s.stack[s.sp.val - 1]'(by omega) }
  else s

/-! ## Display buffer (R210 to R217) -/

/-- W of the current geometry (R210). -/
def widthOf (ext : Bool) : Nat := if ext then 128 else 64

/-- H of the current geometry (R210). -/
def heightOf (ext : Bool) : Nat := if ext then 64 else 32

/-- Cell `D[j]`. -/
def Display.cell (d : Display) (j : Nat) : Bool := d.contains j

/-- An index put in its place of a rising list. -/
def Display.insert (d : Display) (j : Nat) : Display :=
  match d with
  | [] => [j]
  | k :: rest => if j < k then j :: k :: rest else k :: Display.insert rest j

/-- `D[j] <- b`. -/
def Display.put (d : Display) (j : Nat) (b : Bool) : Display :=
  let others := d.filter (fun k => k ≠ j)
  if b then Display.insert others j else others

/-- The canonical form: indexes strictly rising and below 8192. -/
abbrev Display.wf (d : Display) : Prop := d.Pairwise (fun j k => j < k) ∧ ∀ j ∈ d, j < 8192

/-- `get_pixel(c, r)` (R212): 0 outside the geometry. -/
def Display.getPixel (ext : Bool) (d : Display) (c r : Nat) : Bool :=
  if c < widthOf ext ∧ r < heightOf ext then Display.cell d (r * widthOf ext + c) else false

/-- `Pix(c, r) <- b` (R212): nothing outside the geometry. -/
def Display.putPixel (ext : Bool) (d : Display) (c r : Nat) (b : Bool) : Display :=
  if c < widthOf ext ∧ r < heightOf ext then Display.put d (r * widthOf ext + c) b else d

/-- `set_pixel(c, r)` (R212). -/
def Display.setPixel (ext : Bool) (d : Display) (c r : Nat) : Display := Display.putPixel ext d c r true

/-- `clear_pixel(c, r)` (R212). -/
def Display.clearPixel (ext : Bool) (d : Display) (c r : Nat) : Display := Display.putPixel ext d c r false

/-- `fill_row(r)` (R213). -/
def Display.fillRow (ext : Bool) (d : Display) (r : Nat) : Display :=
  (List.range (widthOf ext)).foldl (fun d c => Display.setPixel ext d c r) d

/-- `clear_row(r)` (R213). -/
def Display.clearRow (ext : Bool) (d : Display) (r : Nat) : Display :=
  (List.range (widthOf ext)).foldl (fun d c => Display.clearPixel ext d c r) d

/-- `fill_column(c)` (R213). -/
def Display.fillColumn (ext : Bool) (d : Display) (c : Nat) : Display :=
  (List.range (heightOf ext)).foldl (fun d r => Display.setPixel ext d c r) d

/-- `clear_column(c)` (R213). -/
def Display.clearColumn (ext : Bool) (d : Display) (c : Nat) : Display :=
  (List.range (heightOf ext)).foldl (fun d r => Display.clearPixel ext d c r) d

/-- Full clear (R214): every one of the 8192 cells, in both modes. -/
def Display.clearAll (_ : Display) : Display := []

/-- Every cell that is 1 in the W×H region moves from (c, r) to where `move c r` says, or is discarded;
every cell outside the region stays (R215 to R217). -/
def Display.moveCells (ext : Bool) (move : Nat → Nat → Option (Nat × Nat)) (d : Display) : Display :=
  d.filterMap fun j =>
    if j < widthOf ext * heightOf ext then
      (move (j % widthOf ext) (j / widthOf ext)).map fun cr => cr.2 * widthOf ext + cr.1
    else some j

/-- `scroll_down(k)` (R215). -/
def Display.scrollDown (ext : Bool) (k : Nat) (d : Display) : Display :=
  Display.moveCells ext (fun c r => if r + k < heightOf ext then some (c, r + k) else none) d

/-- `scroll_right()` (R216). -/
def Display.scrollRight (ext : Bool) (d : Display) : Display :=
  Display.moveCells ext
    (fun c r => if c + scrollCols < widthOf ext then some (c + scrollCols, r) else none) d

/-- `scroll_left()` (R217). -/
def Display.scrollLeft (ext : Bool) (d : Display) : Display :=
  Display.moveCells ext (fun c r => if scrollCols ≤ c then some (c - scrollCols, r) else none) d

/-- `Pix(c, r)` of a state's display. -/
def State.pixel (s : State) (c r : Nat) : Bool := Display.getPixel s.ext s.display c r

/-- The display buffer replaced. -/
def State.setDisplay (s : State) (d : Display) : State := { s with display := d }

/-! ## Timers, mode, key-wait, halt, persistent bank (R29, R30, R32 to R35) -/

/-- `DT <- b`. -/
def State.setDt (s : State) (b : Byte) : State := { s with dt := b }

/-- `ST <- b`. -/
def State.setSt (s : State) (b : Byte) : State := { s with st := b }

/-- `EXT <- b`. -/
def State.setExt (s : State) (b : Bool) : State := { s with ext := b }

/-- `WAIT <- w`. -/
def State.setWait (s : State) (w : KeyWait) : State := { s with wait := w }

/-- `HALT <- 1`: nothing but `init` clears it (R35). -/
def State.setHalt (s : State) : State := { s with halt := true }

/-- `R[k]`. -/
def State.getR (s : State) (k : Fin 8) : Byte := s.r[k]

/-- `R[k] <- b`. -/
def State.setR (s : State) (k : Fin 8) (b : Byte) : State := { s with r := s.r.set k b }

/-! ## Instruction fetch (R53, R103) -/

/-- The two bytes of the instruction at `pc`; the address of the second wraps (R53, R56). -/
def State.fetchBytes (s : State) : Byte × Byte := (s.readByte s.pc, s.readByte (s.pc + 1))

/-- Two bytes stored where the next instruction is fetched, the first at `pc` (R53). -/
def State.storeAtPc (s : State) (hi lo : Byte) : State := (s.writeByte s.pc hi).writeByte (s.pc + 1) lo

end Sys2Proof.Machine
end

