-- ==== Sys2Proof/Machine/Flags.lean ====
section
/-! DEFINITION. The one flag, `VF` (10_state.md R23), and the results it goes with (42_alu.md R150 to R162).
Operands are taken as naturals, the result is exact, and it is narrowed at the end (R150). -/

namespace Sys2Proof.Machine

/-- A flag as the byte written to `VF`: 1 or 0. -/
def flagByte (b : Bool) : Byte := if b then 1 else 0

/-- `(a + b) mod 256`. -/
def sumByte (a b : Byte) : Byte := BitVec.ofNat 8 (a.toNat + b.toNat)

/-- The carry of the unmasked sum (R158). -/
def carry (a b : Byte) : Bool := decide (a.toNat + b.toNat > 255)

/-- `(a + 256 - b) mod 256` (R150). -/
def diffByte (a b : Byte) : Byte := BitVec.ofNat 8 (a.toNat + 256 - b.toNat)

/-- No borrow, the strict comparison of R159 and R161: 0 on equal operands (U9). -/
def exceeds (a b : Byte) : Bool := decide (a.toNat > b.toNat)

/-- `a >> 1`. -/
def halfByte (a : Byte) : Byte := BitVec.ofNat 8 (a.toNat / 2)

/-- Bit 0, shifted out by `SHR` (R160). -/
def lowBit (a : Byte) : Bool := a.getLsbD 0

/-- `(a << 1) mod 256`. -/
def doubleByte (a : Byte) : Byte := BitVec.ofNat 8 (a.toNat * 2)

/-- Bit 7, shifted out by `SHL` (R162). -/
def highBit (a : Byte) : Bool := a.getLsbD 7

/-- `VF <- flag`. -/
def State.setFlag (s : State) (flag : Bool) : State := s.setV 15 (flagByte flag)

/-- `Vx` and `VF` of a flag-writing ALU instruction, both computed from operands already read: `Vx` first,
then `VF`, so that with `x = 15` the flag stays (R151), or in the other order, as the parameter `VF_DEST_ORDER`
says. -/
def State.setVThenFlag (s : State) (x : Reg) (result : Byte) (flag : Bool) : State :=
  match s.params.vfDestOrder with
  | .flagWins => (s.setV x result).setFlag flag
  | .resultWins => (s.setFlag flag).setV x result

end Sys2Proof.Machine
end

