-- ==== Sys2Proof/Machine/Alu.lean ====
section
/-! DEFINITION. Register loads and arithmetic (42_alu.md R150 to R164). -/

namespace Sys2Proof.Machine

/-- `6xkk` LD Vx, kk (R152). -/
def execLdImm (x : Reg) (kk : Byte) (s : State) : Result := .next (s.setV x kk)

/-- `7xkk` ADD Vx, kk (R153): no flag. -/
def execAddImm (x : Reg) (kk : Byte) (s : State) : Result := .next (s.setV x (sumByte (s.getV x) kk))

/-- `8xy0` LD Vx, Vy (R154). -/
def execLdReg (x y : Reg) (s : State) : Result := .next (s.setV x (s.getV y))

/-- `8xy1` OR (R155): no flag. -/
def execOrReg (x y : Reg) (s : State) : Result := .next (s.setV x (s.getV x ||| s.getV y))

/-- `8xy2` AND (R156): no flag. -/
def execAndReg (x y : Reg) (s : State) : Result := .next (s.setV x (s.getV x &&& s.getV y))

/-- `8xy3` XOR (R157): no flag. -/
def execXorReg (x y : Reg) (s : State) : Result := .next (s.setV x (s.getV x ^^^ s.getV y))

/-- `8xy4` ADD Vx, Vy (R158): the carry. -/
def execAddReg (x y : Reg) (s : State) : Result :=
  let a := s.getV x
  let b := s.getV y
  .next (s.setVThenFlag x (sumByte a b) (carry a b))

/-- `8xy5` SUB Vx, Vy (R159): 1 iff `Vx > Vy`. -/
def execSubReg (x y : Reg) (s : State) : Result :=
  let a := s.getV x
  let b := s.getV y
  .next (s.setVThenFlag x (diffByte a b) (exceeds a b))

/-- `8xy6` SHR Vx (R160): the bit shifted out; `y` is not read. -/
def execShr (x _y : Reg) (s : State) : Result :=
  let a := s.getV x
  .next (s.setVThenFlag x (halfByte a) (lowBit a))

/-- `8xy7` SUBN Vx, Vy (R161): 1 iff `Vy > Vx`. -/
def execSubn (x y : Reg) (s : State) : Result :=
  let a := s.getV x
  let b := s.getV y
  .next (s.setVThenFlag x (diffByte b a) (exceeds b a))

/-- `8xyE` SHL Vx (R162): the bit shifted out; `y` is not read. -/
def execShl (x _y : Reg) (s : State) : Result :=
  let a := s.getV x
  .next (s.setVThenFlag x (doubleByte a) (highBit a))

/-- `Cxkk` RND Vx, kk (R163): the random byte this step sampled, masked by `kk`. -/
def execRnd (x : Reg) (kk : Byte) (s : State) : Result := .next (s.setV x (s.rnd &&& kk))

end Sys2Proof.Machine
end

