-- ==== Sys2Proof/Machine/Control.lean ====
section
/-! DEFINITION. Control transfer (41_control_flow.md R120 to R129): return, jump, call, skips, computed jump.
No delay slots, no alignment (R129). -/

namespace Sys2Proof.Machine

/-- The skip of R128: 2 more when the condition holds. -/
def skipIf (condition : Bool) (s : State) : Result := .next (if condition then s.advancePc else s)

/-- `00EE` RET (R120): nothing on an empty stack (`90_conflicts.md` C3, log entry 14). -/
def execRet (s : State) : Result := .next s.popToPc

/-- `1nnn` JP (R121). -/
def execJp (nnn : Addr) (s : State) : Result := .next (s.setPc nnn)

/-- `2nnn` CALL (R122): on a full stack the push is skipped and the jump taken (C2, log entry 14). -/
def execCall (nnn : Addr) (s : State) : Result := .next ((s.push s.pc).setPc nnn)

/-- `3xkk` SE Vx, kk (R123). -/
def execSeImm (x : Reg) (kk : Byte) (s : State) : Result := skipIf (s.getV x == kk) s

/-- `4xkk` SNE Vx, kk (R124). -/
def execSneImm (x : Reg) (kk : Byte) (s : State) : Result := skipIf (s.getV x != kk) s

/-- `5xy0` SE Vx, Vy (R125). -/
def execSeReg (x y : Reg) (s : State) : Result := skipIf (s.getV x == s.getV y) s

/-- `9xy0` SNE Vx, Vy (R126). -/
def execSneReg (x y : Reg) (s : State) : Result := skipIf (s.getV x != s.getV y) s

/-- `Bnnn` JP V0, nnn (R127). -/
def execJpV0 (nnn : Addr) (s : State) : Result :=
  .next (s.setPc (BitVec.ofNat 12 ((s.getV 0).toNat + nnn.toNat)))

end Sys2Proof.Machine
end

