-- ==== Sys2Proof/Machine/Operands.lean ====
section
/-! DEFINITION. The operand forms: addressing through `I` (43_memory_index.md R189), glyph addresses, the
persistent bank's clamp, decimal digits, the key a register names, sprite bits, the sampled ports. -/

namespace Sys2Proof.Machine

/-- The address of the `k`-th byte an instruction moves: `(I + k) mod 4096` (R189). -/
def State.addrAt (s : State) (k : Nat) : Addr := BitVec.ofNat 12 (s.i.toNat + k)

/-- General register `k` of a bulk move, `k` at most 15. -/
def regAt (k : Nat) : Reg := Fin.ofNat 16 k

/-- Persistent register `k` of a bulk move, `k` at most 7. -/
def bankAt (k : Nat) : Fin 8 := Fin.ofNat 8 k

/-- The last register `Fx75`/`Fx85` move: `min(x, 7)` (R187, R188). -/
def bankTop (x : Reg) : Nat := min x.val 7

/-- The hundreds digit of a byte (R184). -/
def hundreds (b : Byte) : Byte := BitVec.ofNat 8 (b.toNat / 100)

/-- The tens digit of a byte (R184). -/
def tens (b : Byte) : Byte := BitVec.ofNat 8 (b.toNat / 10 % 10)

/-- The ones digit of a byte (R184). -/
def ones (b : Byte) : Byte := BitVec.ofNat 8 (b.toNat % 10)

/-- The address of a glyph: the font's base plus the low nibble times the glyph's size (R182, R183). -/
def glyphAddr (base size : Nat) (b : Byte) : Addr := BitVec.ofNat 12 (base + b.toNat % 16 * size)

/-- `keys[k]` of the current sample (R250). -/
def State.keyDown (s : State) (k : Nat) : Bool := s.keys.getLsbD k

/-- Whether the key that `Vx AND 0x0F` names is down (R253, R254). -/
def State.keyOf (s : State) (x : Reg) : Bool := s.keyDown (s.getV x &&& 0x0F#8).toNat

/-- The lowest key that is down (R252). -/
def State.firstKey (s : State) : Option Nat := (List.range 16).find? fun k => s.keyDown k

/-- The rows, columns and bytes per row of a sprite (R219, R226). -/
structure SpriteShape where
  rows : Nat
  cols : Nat
  bytesPerRow : Nat
  deriving DecidableEq, Repr

/-- 16×16 in extended mode with `n = 0`, else `n` rows of 8 columns (R226). -/
def spriteShape (ext : Bool) (n : Nibble) : SpriteShape :=
  if ext = true ∧ n = 0 then ⟨16, 16, 2⟩ else ⟨n.toNat, 8, 1⟩

/-- The sprite's bit at row `r`, column `c`: bit 7 of a byte is its leftmost column (R219). -/
def State.spriteBit (s : State) (shape : SpriteShape) (r c : Nat) : Bool :=
  (s.readByte (s.addrAt (r * shape.bytesPerRow + c / 8))).getLsbD (7 - c % 8)

/-- The two input ports sampled by a `step` (R250, R290): given levels, or free values (log entry 7). -/
def State.sample (s : State) (inputs : Option (Keys × Byte)) : State :=
  match inputs with
  | some ports => { s with keys := ports.1, rnd := ports.2 }
  | none =>
    { s with keys := Config.keyLevels s.draws, rnd := Config.randomByte s.draws, draws := s.draws + 1 }

end Sys2Proof.Machine
end

