-- ==== Sys2Proof/Machine/DisplayUnit.lean ====
section
/-! DEFINITION. The display instructions (44_display.md R220 to R227). -/

namespace Sys2Proof.Machine

/-- `00E0` CLS (R220): all 8192 cells (R214, D13, log entry 18). -/
def execCls (s : State) : Result := .next (s.setDisplay (Display.clearAll s.display))

/-- `00Cn` SCD n (R221). -/
def execScd (n : Nibble) (s : State) : Result :=
  .next (s.setDisplay (Display.scrollDown s.ext n.toNat s.display))

/-- `00FB` SCR (R222). -/
def execScr (s : State) : Result := .next (s.setDisplay (Display.scrollRight s.ext s.display))

/-- `00FC` SCL (R223). -/
def execScl (s : State) : Result := .next (s.setDisplay (Display.scrollLeft s.ext s.display))

/-- `00FE` LOW (R224): sets the mode, the buffer stays (R218, D12, log entry 18). -/
def execLow (s : State) : Result := .next (s.setExt false)

/-- `00FF` HIGH (R225): sets the mode, the buffer stays (R218, D12, log entry 18). -/
def execHigh (s : State) : Result := .next (s.setExt true)

/-- A display and the collision seen so far, while a sprite is drawn (R226). -/
structure Drawing where
  display : Display
  hit : Bool
  deriving DecidableEq, Repr

/-- One bit of a sprite drawn at (px, py): a set bit inverts the cell and notes whether it was 1 (R226). -/
def drawBit (ext bit : Bool) (px py : Nat) (g : Drawing) : Drawing :=
  if bit then
    let old := Display.getPixel ext g.display px py
    ⟨Display.putPixel ext g.display px py (!old), g.hit || old⟩
  else g

/-- One row of a sprite, columns ascending, each column wrapped modulo W (R226, D11). -/
def drawRow (s : State) (shape : SpriteShape) (x0 y0 r : Nat) (g : Drawing) : Drawing :=
  (List.range shape.cols).foldl
    (fun g c => drawBit s.ext (s.spriteBit shape r c) ((x0 + c) % widthOf s.ext) ((y0 + r) % heightOf s.ext) g) g

/-- A whole sprite, rows ascending (R226). -/
def drawSprite (s : State) (shape : SpriteShape) (x0 y0 : Nat) : Drawing :=
  (List.range shape.rows).foldl (fun g r => drawRow s shape x0 y0 r g) ⟨s.display, false⟩

/-- `Dxyn` DRW Vx, Vy, n (R226): the coordinates are read before `VF` is written. -/
def execDrw (x y : Reg) (n : Nibble) (s : State) : Result :=
  let g := drawSprite s (spriteShape s.ext n) (s.getV x).toNat (s.getV y).toNat
  .next ((s.setDisplay g.display).setFlag g.hit)

end Sys2Proof.Machine
end

