-- ==== Sys2Proof/Machine/KeysTimers.lean ====
section
/-! DEFINITION. Key skips, the key-wait service and the timer instructions (45_timers_keys.md R250 to R258),
and the timer countdown engine (60_exceptions.md R286 to R289). -/

namespace Sys2Proof.Machine

/-- `Ex9E` SKP Vx (R253). -/
def execSkp (x : Reg) (s : State) : Result := skipIf (s.keyOf x) s

/-- `ExA1` SKNP Vx (R254). -/
def execSknp (x : Reg) (s : State) : Result := skipIf (!s.keyOf x) s

/-- `Fx07` LD Vx, DT (R255). -/
def execLdFromDt (x : Reg) (s : State) : Result := .next (s.setV x s.dt)

/-- `Fx0A` LD Vx, K (R256): only enters the wait; the first poll is the next step's (C8, log entry 15). -/
def execLdKey (x : Reg) (s : State) : Result := .next (s.setWait (.waiting x))

/-- `Fx15` LD DT, Vx (R257): `ACC` stays. -/
def execLdDt (x : Reg) (s : State) : Result := .next (s.setDt (s.getV x))

/-- `Fx18` LD ST, Vx (R258): `SPK` stays. -/
def execLdSt (x : Reg) (s : State) : Result := .next (s.setSt (s.getV x))

/-- The key-wait service (R252): the lowest key down goes to `V[r]` and the machine runs again; with no key
down nothing changes. -/
def keyWaitService (r : Reg) (s : State) : State :=
  match s.firstKey with
  | some k => (s.setV r (BitVec.ofNat 8 k)).setWait .running
  | none => s

/-- A timer one lower, never below zero (R29, R30, R286). -/
def countDown (b : Byte) : Byte := if b = 0 then 0 else b - 1

/-- One tick (R286, R287): both timers count down, then `SPK <- (ST > 0)`. -/
def tick (s : State) : State :=
  { s with dt := countDown s.dt, st := countDown s.st, spk := decide ((countDown s.st).toNat > 0) }

/-- The engine's loop "while ACC > Q" (R286), both sides times `quantumDen`, at most `fuel` rounds. -/
def tickLoop (fuel : Nat) (s : State) : State :=
  match fuel with
  | 0 => s
  | rounds + 1 =>
    if s.acc > s.params.quantumNum then tickLoop rounds (tick { s with acc := s.acc - s.params.quantumNum })
    else s

/-- `update_time(delta_ms)` (R286), in the integer form: with the quantum 50/3, `3 × delta_ms` is added. Every round
takes a positive quantum, so as many rounds as the accumulator has units are enough. -/
def updateTime (deltaMs : Nat) (s : State) : State :=
  tickLoop (s.acc + s.params.quantumDen * deltaMs) { s with acc := s.acc + s.params.quantumDen * deltaMs }

end Sys2Proof.Machine
end

