-- ==== Sys2Proof/Machine/MemoryIndex.lean ====
section
/-! DEFINITION. The address register, loads and stores, and the persistent bank (43_memory_index.md R180 to
R189). -/

namespace Sys2Proof.Machine

/-- `Annn` LD I, nnn (R180). -/
def execLdI (nnn : Addr) (s : State) : Result := .next (s.setI nnn)

/-- `Fx1E` ADD I, Vx (R181): no flag. -/
def execAddI (x : Reg) (s : State) : Result := .next (s.setI (s.addrAt (s.getV x).toNat))

/-- `Fx29` LD F, Vx (R182). -/
def execLdFont (x : Reg) (s : State) : Result :=
  .next (s.setI (glyphAddr fontBase fontGlyphBytes (s.getV x)))

/-- `Fx30` LD HF, Vx (R183), the same in both modes. -/
def execLdHFont (x : Reg) (s : State) : Result :=
  .next (s.setI (glyphAddr s.params.extFontBase.toNat extFontGlyphBytes (s.getV x)))

/-- `Fx33` LD B, Vx (R184). -/
def execBcd (x : Reg) (s : State) : Result :=
  let b := s.getV x
  .next (((s.writeByte (s.addrAt 0) (hundreds b)).writeByte (s.addrAt 1) (tens b)).writeByte (s.addrAt 2)
    (ones b))

/-- What `Fx55`/`Fx65` leave in `I` (R189, parameter `I_INCREMENT`). -/
def afterBulk (x : Reg) (s : State) : State :=
  match s.params.iIncrement with
  | .none => s
  | .xPlusOne => s.setI (s.addrAt (x.val + 1))

/-- `Fx55` LD [I], Vx (R185). -/
def execStoreRegs (x : Reg) (s : State) : Result :=
  .next (afterBulk x (loopTo x.val (fun k t => t.writeByte (t.addrAt k) (t.getV (regAt k))) s))

/-- `Fx65` LD Vx, [I] (R186). -/
def execLoadRegs (x : Reg) (s : State) : Result :=
  .next (afterBulk x (loopTo x.val (fun k t => t.setV (regAt k) (t.readByte (t.addrAt k))) s))

/-- `Fx75` LD R, Vx (R187): `x > 7` is clamped to 7 (D7, log entry 16). -/
def execStoreBank (x : Reg) (s : State) : Result :=
  .next (loopTo (bankTop x) (fun k t => t.setR (bankAt k) (t.getV (regAt k))) s)

/-- `Fx85` LD Vx, R (R188): `x > 7` is clamped to 7 (D7, log entry 16). -/
def execLoadBank (x : Reg) (s : State) : Result :=
  .next (loopTo (bankTop x) (fun k t => t.setV (regAt k) (t.getR (bankAt k))) s)

end Sys2Proof.Machine
end

