-- ==== Sys2Proof/Machine/System.lean ====
section
/-! DEFINITION. The system instruction of 40_step.md: EXIT. A meaning starts with `pc` already advanced to the
fetch address plus 2 (R103). -/

namespace Sys2Proof.Machine

/-- `00FD` EXIT (R107). -/
def execExit (s : State) : Result := .next s.setHalt

end Sys2Proof.Machine
end

