-- ==== Sys2Proof/Machine/Transact.lean ====
section
/-! DEFINITION. The transactions of the block (60_exceptions.md R291): `init`, `load`, `step`, `update_time`, the
capabilities and the reads; and which of them happens next. -/

namespace Sys2Proof.Machine

/-! ## init and load (70_reset_and_hazards.md R320 to R326) -/

/-- `init` (R320, R326): the state of R321, from any state. What is the host's own stays: the ports' levels,
the free samples taken, the poller's wiring, the transactions to come; and so do the parameters. -/
def initMachine (s : State) : State :=
  { State.reset with
    keys := s.keys, rnd := s.rnd, draws := s.draws, keyPoller := s.keyPoller, agenda := s.agenda,
    params := s.params }

/-- `load(bytes)` (R323, D26): admitted only between an `init` and the first `step` after it, and only up to
3584 bytes; it changes the cells from 0x200 on and nothing else. -/
def loadRom (bytes : List Byte) (s : State) : Result :=
  match s.phase with
  | .beforeInit => .refused .beforeInit
  | .started => .refused .loadAfterStart
  | .loadable =>
    if romWellFormed bytes then .next (s.writeBytes (BitVec.ofNat 12 programStart) bytes)
    else .refused .romTooLong

/-! ## step (40_step.md R100 to R106) -/

/-- Fetch, pre-advance, dispatch (R103, R104); a word of the no-op space only advances `pc` (R106, log entry
12). -/
def runWord (s : State) : Result :=
  match decodeBytes s.fetchBytes.1 s.fetchBytes.2 with
  | .instr i => exec i s.advancePc
  | .noOp => .next s.advancePc

/-- A step that is not halted: the ports are sampled at its start (R250), then the key-wait service runs or
an instruction does (R100, R102). -/
def runStep (inputs : Option (Keys × Byte)) (s : State) : Result :=
  let t := { s.sample inputs with phase := .started }
  match t.wait with
  | .waiting r => .next (keyWaitService r t)
  | .running => runWord t

/-- `step` (R100): refused before the first `init` (R325) and without a key poller (R292, log entry 10);
nothing when halted (R101); else a key-wait poll or one instruction. -/
def stepTransaction (inputs : Option (Keys × Byte)) (s : State) : Result :=
  if s.phase = .beforeInit then .refused .beforeInit
  else if s.keyPoller = false then .refused .noKeyPoller
  else if s.halt = true then .next s
  else runStep inputs s

/-! ## update_time, reads, capabilities -/

/-- A transaction that only needs the first `init` to have run (R40, R325). -/
def afterInit (s t : State) : Result :=
  if s.phase = .beforeInit then .refused .beforeInit else .next t

/-- The value a read gives (R291). -/
def portValue (port : Port) (s : State) : PortValue :=
  match port with
  | .spk => .bit s.spk
  | .geometry => .size (widthOf s.ext) (heightOf s.ext)
  | .pixel c r => .bit (s.pixel c r)
  | .dt => .byte s.dt
  | .st => .byte s.st
  | .haltRequested => .bit s.halt

/-- What the host gets from a read: refused before the first `init` (R325). -/
def hostRead (port : Port) (s : State) : Except Refusal PortValue :=
  if s.phase = .beforeInit then .error .beforeInit else .ok (portValue port s)

/-- One transaction (R6, R291). A read changes nothing; installing the poller is wiring and changes no
Machine state, installing the speaker none at all (R292). -/
def transact (t : Transaction) (s : State) : Result :=
  match t with
  | .init => .next (initMachine s)
  | .load bytes => loadRom bytes s
  | .step inputs => stepTransaction inputs s
  | .updateTime deltaMs => afterInit s (updateTime deltaMs s)
  | .setKeyPoller => .next { s with keyPoller := true }
  | .setSpeaker => .next s
  | .read _ => afterInit s s

/-- The next transaction: the agenda's first, or, where the agenda fixes none, a `step` whose ports are free
values (R7, log entry 8). -/
def nextTransaction (s : State) : Result :=
  match s.agenda with
  | [] => transact (.step none) s
  | t :: rest => transact t { s with agenda := rest }

/-! ## Placing an instruction -/

/-- Whether a transaction is a `step`. -/
def isStep (t : Transaction) : Bool :=
  match t with
  | .step _ => true
  | _ => false

/-- A state whose very next transaction is a `step` that fetches: initialised, poller installed, not halted,
not waiting, no other transaction before the step (log entry 11). -/
def readyToFetch (s : State) : State :=
  { s with
    phase := if s.phase = .beforeInit then .loadable else s.phase
    keyPoller := true
    halt := false
    wait := .running
    agenda := s.agenda.dropWhile fun t => !isStep t }

/-- A word placed where the next step fetches it (log entry 11). -/
def placeWord (s : State) (w : Word) : State := (readyToFetch s).storeAtPc (highByte w) (lowByte w)

end Sys2Proof.Machine
end

