-- ==== Sys2Proof/Machine/Step.lean ====
section
/-! DEFINITION. The machine's step: the next transaction of the block (00_scope.md R6, R7). -/

namespace Sys2Proof.Machine

/-- One transaction, as State's agenda says: with an empty agenda the `step` of R100. -/
def step (s : State) : Host.Outcome State Fault Refusal := Sys2Proof.Machine.nextTransaction s

/-- `s` with a word of spec/opcode_table.json stored where the next step fetches it, and everything else
such that the very next step fetches (log entry 11). -/
def State.withFetchWord (s : State) (nbits w : Nat) : State := placeWord s (tableWord nbits w)

end Sys2Proof.Machine
end

