-- ==== Sys2Proof/Safety.lean ====
section
/-! DEFINITION. The terms statements are made in: the invariant of the machine, which state an instruction
may write, what a sprite covers, and which state a `step` starts from. -/

namespace Sys2Proof.Machine

/-! ## The invariant -/

/-- What holds at reset and every transaction keeps: memory and display in canonical form, a positive timer
quantum with at most one of it left in the accumulator (R288), and never halted and waiting at once (R283). -/
structure State.Inv (s : State) : Prop where
  mem : Memory.wf s.params.extFontBase s.mem
  display : Display.wf s.display
  quantum : 0 < s.params.quantumNum ∧ 0 < s.params.quantumDen
  acc : s.acc ≤ s.params.quantumNum
  idle : ¬ (s.halt = true ∧ s.wait ≠ .running)

/-! ## Memory seen byte by byte -/

/-- Every byte of memory reads the same. -/
def State.SameMemory (s t : State) : Prop := ∀ a : Addr, t.readByte a = s.readByte a

/-! ## Frames: all of State but the named part is as before, every byte of memory among it -/

/-- Only general registers may differ. -/
def OnlyRegs (s t : State) : Prop := t = { s with v := t.v } ∧ s.SameMemory t

/-- Only `Vx` may differ. -/
def OnlyReg (x : Reg) (s t : State) : Prop := OnlyRegs s t ∧ ∀ k, k ≠ x → t.getV k = s.getV k

/-- Only `pc` may differ. -/
def OnlyPc (s t : State) : Prop := t = { s with pc := t.pc } ∧ s.SameMemory t

/-- Only `I` may differ. -/
def OnlyI (s t : State) : Prop := t = { s with i := t.i } ∧ s.SameMemory t

/-- Only the display buffer may differ. -/
def OnlyDisplay (s t : State) : Prop := t = { s with display := t.display } ∧ s.SameMemory t

/-- Only `pc`, `SP` and the stack's entries may differ. -/
def OnlyStackAndPc (s t : State) : Prop :=
  t = { s with pc := t.pc, sp := t.sp, stack := t.stack } ∧ s.SameMemory t

/-- Only the persistent bank may differ. -/
def OnlyBank (s t : State) : Prop := t = { s with r := t.r } ∧ s.SameMemory t

/-- Only memory may differ, and only at the addresses in `written`. -/
def OnlyMemoryAt (written : Addr → Prop) (s t : State) : Prop :=
  t = { s with mem := t.mem } ∧ ∀ a, ¬ written a → t.readByte a = s.readByte a

/-- The two writes of a flag-writing ALU instruction go to `VF` both, and the result is written last (R151, U3). -/
def ResultStays (x : Reg) (s : State) : Prop := x = 15 ∧ s.params.vfDestOrder = .resultWins

/-- The outcome of a flag-writing ALU instruction (R151): `Vx` is `result` and `VF` is 1 exactly when `flag` holds,
and 0 else; with `x = 15` the flag stays, or the result under the parameter `VF_DEST_ORDER` = result-wins; nothing
else changes. -/
def FlagOutcome (x : Reg) (result : Nat) (flag : Prop) (s t : State) : Prop :=
  OnlyRegs s t ∧ (¬ ResultStays x s → (flag → t.getV 15 = 1) ∧ (¬ flag → t.getV 15 = 0)) ∧
    (ResultStays x s ∨ x ≠ 15 → (t.getV x).toNat = result) ∧ ∀ k, k ≠ x → k ≠ 15 → t.getV k = s.getV k

/-! ## Who writes what (R23, R24, R26, R27, R29, R30, R31 to R35, R57) -/

/-- The general registers an instruction may write, the flag among them (R23, R24). -/
def writesReg (i : Instr) (k : Reg) : Bool :=
  match i with
  | .ldImm x _ | .addImm x _ | .ldReg x _ | .orReg x _ | .andReg x _ | .xorReg x _ | .rnd x _ | .ldFromDt x =>
    k == x
  | .addReg x _ | .subReg x _ | .shr x _ | .subn x _ | .shl x _ => k == x || k == 15
  | .drw _ _ _ => k == 15
  | .loadRegs x => decide (k ≤ x)
  | .loadBank x => decide (k.val ≤ min x.val 7)
  | _ => false

/-- The instructions that write `M` (R57). -/
def writesMem (i : Instr) : Bool :=
  match i with
  | .bcd _ | .storeRegs _ => true
  | _ => false

/-- The instructions that write `pc` further than its pre-advance (R25). -/
def writesPc (i : Instr) : Bool :=
  match i with
  | .ret | .jp _ | .call _ | .jpV0 _ => true
  | .seImm _ _ | .sneImm _ _ | .seReg _ _ | .sneReg _ _ | .skp _ | .sknp _ => true
  | _ => false

/-- The instructions that write `I` (R26); `Fx55` and `Fx65` only where the parameter `I_INCREMENT` is x+1 (U4). -/
def writesI (i : Instr) (p : Parameters) : Bool :=
  match i with
  | .ldI _ | .addI _ | .ldFont _ | .ldHFont _ => true
  | .storeRegs _ | .loadRegs _ => p.iIncrement == .xPlusOne
  | _ => false

/-- The instructions that reach the call stack (R27). -/
def writesStack (i : Instr) : Bool :=
  match i with
  | .call _ | .ret => true
  | _ => false

/-- The instructions that reach the display buffer (R52). -/
def writesDisplay (i : Instr) : Bool :=
  match i with
  | .cls | .scd _ | .scr | .scl | .drw _ _ _ => true
  | _ => false

/-- The instructions that write `EXT` (R32). -/
def writesExt (i : Instr) : Bool :=
  match i with
  | .low | .high => true
  | _ => false

/-- The instruction that writes `DT` (R29). -/
def writesDt (i : Instr) : Bool :=
  match i with
  | .ldDt _ => true
  | _ => false

/-- The instruction that writes `ST` (R30). -/
def writesSt (i : Instr) : Bool :=
  match i with
  | .ldSt _ => true
  | _ => false

/-- The instruction that writes `WAIT` (R33). -/
def writesWait (i : Instr) : Bool :=
  match i with
  | .ldKey _ => true
  | _ => false

/-- The instruction that sets `HALT` (R35). -/
def writesHalt (i : Instr) : Bool :=
  match i with
  | .exit => true
  | _ => false

/-- The instruction that writes the persistent bank (R34). -/
def writesBank (i : Instr) : Bool :=
  match i with
  | .storeBank _ => true
  | _ => false

/-- `I` after `Fx55` or `Fx65` (R189, parameter `I_INCREMENT`). -/
def bulkI (x : Reg) (s : State) : Nat :=
  match s.params.iIncrement with
  | .none => s.i.toNat
  | .xPlusOne => (s.i.toNat + x.val + 1) % 4096

/-! ## Memory after init (R321, R322) -/

/-- The byte at `a` after an `init`, as the table of R321 gives it for any `EXT_FONT_BASE`. -/
def byteAfterInit (p : Parameters) (a : Addr) : Byte :=
  if (a - p.extFontBase).toNat < 160 then Config.fontLarge (a - p.extFontBase).toNat
  else if 0x050 ≤ a.toNat ∧ a.toNat ≤ 0x09F then Config.fontSmall (a.toNat - 0x050)
  else 0

/-! ## Skips (R128) -/

/-- The condition of a skip instruction; none for an instruction that is not one of the six. -/
def skipCondition (i : Instr) (s : State) : Option Prop :=
  match i with
  | .seImm x kk => some (s.getV x = kk)
  | .sneImm x kk => some (s.getV x ≠ kk)
  | .seReg x y => some (s.getV x = s.getV y)
  | .sneReg x y => some (s.getV x ≠ s.getV y)
  | .skp x => some (s.keys.getLsbD ((s.getV x).toNat % 16) = true)
  | .sknp x => some (s.keys.getLsbD ((s.getV x).toNat % 16) = false)
  | _ => none

/-- `pc` after an executed instruction fetched at `a` (R108): `s` is the state it reads its operands from. -/
def pcOutcome (i : Instr) (s : State) (a after : Addr) : Prop :=
  match i with
  | .jp nnn | .call nnn => after = nnn
  | .jpV0 nnn => after.toNat = ((s.getV 0).toNat + nnn.toNat) % 4096
  | .ret => if h : 0 < s.sp.val then after = s.stack[s.sp.val - 1]'(by omega) else after = a + 2
  | i =>
    match skipCondition i s with
    | some condition => (condition → after = a + 4) ∧ (¬ condition → after = a + 2)
    | none => after = a + 2

/-! ## Sprites, as R226 writes them -/

/-- `rows` of R226. -/
def spriteRows (s : State) (n : Nibble) : Nat := if s.ext = true ∧ n = 0 then 16 else n.toNat

/-- `cols` of R226. -/
def spriteCols (s : State) (n : Nibble) : Nat := if s.ext = true ∧ n = 0 then 16 else 8

/-- `bpr` of R226. -/
def spriteBpr (s : State) (n : Nibble) : Nat := if s.ext = true ∧ n = 0 then 2 else 1

/-- `b[7 - (c mod 8)]` with `b = MemRead(I + r*bpr + (c div 8), 1)` (R226). -/
def spriteAt (s : State) (n : Nibble) (r c : Nat) : Bool :=
  (s.readByte (BitVec.ofNat 12 (s.i.toNat + r * spriteBpr s n + c / 8))).getLsbD (7 - c % 8)

/-- `px = (x0 + c) mod W` (R226). -/
def spriteX (s : State) (x : Reg) (c : Nat) : Nat := ((s.getV x).toNat + c) % widthOf s.ext

/-- `py = (y0 + r) mod H` (R226). -/
def spriteY (s : State) (y : Reg) (r : Nat) : Nat := ((s.getV y).toNat + r) % heightOf s.ext

/-- The cell of the sprite's row `r`, column `c` (R210, R226). -/
def spriteCell (s : State) (x y : Reg) (r c : Nat) : Nat := spriteY s y r * widthOf s.ext + spriteX s x c

/-! ## Steps -/

/-- The word at `pc`, the byte at `pc` its bits 15-8 (R53, R103). -/
def wordAtPc (s : State) : Word := wordOfBytes (s.readByte s.pc) (s.readByte (s.pc + 1))

/-- The next transaction is a `step` with the given inputs, and `s0` is the state it starts from: with an
empty agenda a free `step`, else the agenda's first entry. -/
def invokesStep (s : State) (inputs : Option (Keys × Byte)) (s0 : State) : Prop :=
  (s.agenda = [] ∧ inputs = none ∧ s0 = s) ∨
    ∃ rest, s.agenda = .step inputs :: rest ∧ s0 = { s with agenda := rest }

/-- A `step` fetches: it is not refused (R292, R325), not halted (R101) and not waiting (R102). -/
def fetches (s : State) : Prop :=
  s.phase ≠ .beforeInit ∧ s.keyPoller = true ∧ s.halt = false ∧ s.wait = .running

/-- A `step` polls the keys for register `r`: it is not refused, not halted, and waits (R102). -/
def polls (r : Reg) (s : State) : Prop :=
  s.phase ≠ .beforeInit ∧ s.keyPoller = true ∧ s.halt = false ∧ s.wait = .waiting r

/-- The state a step samples its ports into before it does anything else (R250). -/
def sampled (inputs : Option (Keys × Byte)) (s : State) : State := { s.sample inputs with phase := .started }

/-- Two states that differ at most in the stack entries no return can reach, those at `SP` and above (R27). -/
def SameButStaleStack (s t : State) : Prop :=
  t = { s with stack := t.stack } ∧ ∀ k : Fin 16, k.val < s.sp.val → t.stack[k] = s.stack[k]

end Sys2Proof.Machine
end

