-- ==== Sys2Proof/Certificates/Slice0/Obligations.lean ====
section
/-! DEFINITION. The statements for the provers. Each docstring names the rule of spec/ it formalises; where a
clause rests on a decision or an inference the spec marks as its own, the docstring names it. -/

open Sys2Proof Sys2Proof.Machine

/-! ## Encoding (30_encoding.md) -/

/-- Decoding the word of a well-formed instruction gives the instruction back, with every operand at every
value its field admits (R71, R72, R74). -/
def Obligations.DecodeInvertsEncode : Prop :=
  ∀ i : Instr, i.wellFormed = true → decode (encode i) = .instr i

/-- A word that decodes to an instruction is the word of that instruction: each has one meaning and no bit is
dropped (R71, R74). -/
def Obligations.EncodeInvertsDecode : Prop :=
  ∀ (w : Word) (i : Instr), decode w = .instr i → encode i = w

/-- The dispatch by families agrees with the table of match and mask: a word that decodes to an instruction is
matched by exactly one of the 43 rows, the instruction's own, and a no-op word by none (R73, R74, R75; R80,
which the spec derives). -/
def Obligations.DispatchAgreesWithOpcodeMap : Prop :=
  ∀ w : Word, match decode w with
    | .instr i => opcodeMap.filter (fun row => rowMatches row w) = [rowOf i]
    | .noOp => opcodeMap.filter (fun row => rowMatches row w) = []

/-- The no-op space, family by family, as the table of R75 lists it (the sub-case matching is the spec's
decision D22). -/
def Obligations.NoOpSpaceByFamily : Prop :=
  ∀ w : Word, decode w = .noOp ↔
    (w.toNat / 4096 = 0 ∧ ¬ (0x00C0 ≤ w.toNat ∧ w.toNat ≤ 0x00CF) ∧ w.toNat ≠ 0x00E0 ∧ w.toNat ≠ 0x00EE ∧
        ¬ (0x00FB ≤ w.toNat ∧ w.toNat ≤ 0x00FF)) ∨
      (w.toNat / 4096 = 5 ∧ w.toNat % 16 ≠ 0) ∨
      (w.toNat / 4096 = 8 ∧ w.toNat % 16 ∈ [0x8, 0x9, 0xA, 0xB, 0xC, 0xD, 0xF]) ∨
      (w.toNat / 4096 = 9 ∧ w.toNat % 16 ≠ 0) ∨
      (w.toNat / 4096 = 0xE ∧ w.toNat % 256 ∉ [0x9E, 0xA1]) ∨
      (w.toNat / 4096 = 0xF ∧
        w.toNat % 256 ∉ [0x07, 0x0A, 0x15, 0x18, 0x1E, 0x29, 0x30, 0x33, 0x55, 0x65, 0x75, 0x85])

/-- A few words written out from the patterns of R74 and the examples of the instruction rules. That 0x8125 is SUB
rests on a code the spec takes from general knowledge (G3, D33; log entry 13), that 0x5121 is a no-op on its
decision D22 (log entry 12). -/
def Obligations.DecodedWordsFromSpec : Prop :=
  decode 0x00E0#16 = .instr .cls ∧ decode 0x00C2#16 = .instr (.scd 2) ∧ decode 0x1ABC#16 = .instr (.jp 0xABC) ∧
    decode 0x3122#16 = .instr (.seImm 1 0x22) ∧ decode 0x8125#16 = .instr (.subReg 1 2) ∧
    decode 0xB300#16 = .instr (.jpV0 0x300) ∧ decode 0xC30F#16 = .instr (.rnd 3 0x0F) ∧
    decode 0xD011#16 = .instr (.drw 0 1 1) ∧ decode 0xE29E#16 = .instr (.skp 2) ∧
    decode 0xF30A#16 = .instr (.ldKey 3) ∧ decode 0xF265#16 = .instr (.loadRegs 2) ∧ decode 0x5121#16 = .noOp

/-! ## The step (40_step.md) -/

/-- A step runs the decoded instruction: ports sampled, `pc` moved past the word, then the instruction's effect
and nothing else (R100, R103, R104, R250). -/
def Obligations.StepRunsDecodedInstruction : Prop :=
  ∀ (s s0 : State) (inputs : Option (Keys × Byte)) (i : Instr), invokesStep s inputs s0 → fetches s0 →
    i.wellFormed = true → decode (wordAtPc s0) = .instr i →
    step s = exec i { sampled inputs s0 with pc := s0.pc + 2 }

/-- A `step` samples the host's two ports (R250, R290): after it, if it was not halted, `keys` and `rnd` are the given
levels, with no free sample taken, or the free values at the counter, which then counts one more; a halted step leaves
the state (R101). The last two clauses say the same of the state `sampled inputs s` that an instruction or a poll
starts from, in which nothing else differs but the boot phase. The forms are the model's choices, log entries 7 and
9. -/
def Obligations.StepSamplesPorts : Prop :=
  (∀ (inputs : Option (Keys × Byte)) (s t : State), transact (.step inputs) s = .next t →
    (s.halt = true → t = s) ∧
    (s.halt = false → t.phase = .started ∧ t.keyPoller = s.keyPoller ∧ t.agenda = s.agenda ∧
      match inputs with
      | some (levels, random) => t.keys = levels ∧ t.rnd = random ∧ t.draws = s.draws
      | none => t.keys = Config.keyLevels s.draws ∧ t.rnd = Config.randomByte s.draws ∧ t.draws = s.draws + 1)) ∧
  ∀ (s : State) (levels : Keys) (random : Byte),
    sampled (some (levels, random)) s = { s with keys := levels, rnd := random, phase := .started } ∧
    sampled none s = { s with
      keys := Config.keyLevels s.draws, rnd := Config.randomByte s.draws, draws := s.draws + 1, phase := .started }

/-- The machine performs the host's transactions in the agenda's order, one a step, and with an empty agenda a
`step` with free inputs (the model's choice, log entry 8, of the interleavings R7 admits). -/
def Obligations.AgendaIsPerformedInOrder : Prop :=
  ∀ s : State,
    (∀ t rest, s.agenda = t :: rest → step s = transact t { s with agenda := rest }) ∧
    (s.agenda = [] → step s = transact (.step none) s)

/-- A no-op word leaves everything but the pre-advanced `pc` (R106) and, in the model's own fields, the sample of the
ports and the boot phase (log entries 7 and 9, the model's choices); which words are no-ops is in part the spec's
decision D22 (log entry 12). -/
def Obligations.StepRunsNoOp : Prop :=
  ∀ (s s0 : State) (inputs : Option (Keys × Byte)), invokesStep s inputs s0 → fetches s0 →
    decode (wordAtPc s0) = .noOp → step s = .next { sampled inputs s0 with pc := s0.pc + 2 }

/-- An instruction placed at `pc` by `withFetchWord` is what the very next step runs, whatever the state was:
`withFetchWord` stores the word and also initialises, installs the poller and clears `HALT` and `WAIT` (log entry 11,
the model's choice); memory is fetched as it was last written (R53, R67, R103; that there is no prefetch and no
alignment is the spec's decision, log entry 27). -/
def Obligations.PlacedInstructionRuns : Prop :=
  ∀ (s : State) (i : Instr), s.agenda = [] → ∃ t : State,
    step (s.withFetchWord 16 (encode i).toNat) = exec i t ∧
      t.pc = s.pc + 2 ∧ t.v = s.v ∧ t.i = s.i ∧ t.stack = s.stack ∧ t.sp = s.sp ∧ t.dt = s.dt ∧ t.st = s.st ∧
      t.display = s.display ∧ t.ext = s.ext ∧ t.r = s.r ∧ t.acc = s.acc ∧ t.spk = s.spk ∧ t.params = s.params ∧
      t.halt = false ∧ t.wait = .running ∧ t.phase = .started ∧ t.keyPoller = true ∧
      ∀ a, a ≠ s.pc → a ≠ s.pc + 1 → t.readByte a = s.readByte a

/-- R101: a halted step changes nothing, and no transaction but `init` leaves the state. -/
def Obligations.HaltedStepChangesNothing : Prop :=
  (∀ (s s0 : State) (inputs : Option (Keys × Byte)), invokesStep s inputs s0 → s0.phase ≠ .beforeInit →
    s0.keyPoller = true → s0.halt = true → step s = .next s0) ∧
  ∀ (t : Transaction) (s u : State), s.halt = true → t ≠ .init → transact t s = .next u → u.halt = true

/-- A waiting step fetches nothing: the lowest key down goes to the waiting register and the machine runs
again, in that one step; with no key down only the ports were sampled (R102, R252; the poll order and its
moment are the spec's decision D9). -/
def Obligations.WaitingStepPollsKeys : Prop :=
  ∀ (s s0 : State) (inputs : Option (Keys × Byte)) (r : Reg), invokesStep s inputs s0 → polls r s0 →
    (∀ k, k < 16 → (sampled inputs s0).keys.getLsbD k = true →
      (∀ j, j < k → (sampled inputs s0).keys.getLsbD j = false) →
      ∃ t : State, step s = .next t ∧ t = { sampled inputs s0 with v := t.v, wait := .running } ∧
        t.getV r = BitVec.ofNat 8 k ∧ ∀ x, x ≠ r → t.getV x = s0.getV x) ∧
    ((∀ k, k < 16 → (sampled inputs s0).keys.getLsbD k = false) → step s = .next (sampled inputs s0))

/-- The `pc` an unrefused step leaves, for every word and every state (the summary R108 and R128 the spec
derives from R101 to R104 and the rules of control transfer). -/
def Obligations.PcOutcomesOfAStep : Prop :=
  ∀ (s s0 t : State) (inputs : Option (Keys × Byte)), invokesStep s inputs s0 → step s = .next t →
    (s0.halt = true ∨ s0.wait ≠ .running → t.pc = s0.pc) ∧
    (s0.halt = false → s0.wait = .running → match decode (wordAtPc s0) with
      | .instr i => pcOutcome i (sampled inputs s0) s0.pc t.pc
      | .noOp => t.pc = s0.pc + 2)

/-- Every instruction completes, in every state and with every operand; and no step of an initialised machine
with a key poller is refused or faults (R280, R284). -/
def Obligations.NothingIsRaised : Prop :=
  (∀ (i : Instr) (s : State), ∃ t, exec i s = .next t) ∧
    ∀ (s s0 : State) (inputs : Option (Keys × Byte)), invokesStep s inputs s0 → s0.phase ≠ .beforeInit →
      s0.keyPoller = true → ∃ t, step s = .next t

/-- Each piece of state is written only by the instructions its rule names; the accumulator, the speaker latch
and the model's own fields by none (R23 to R27, R29, R30, R32 to R35, R57, R100). Decisions of the spec it rests on:
`VF` stays under OR, AND and XOR (D5, log entry 26), the bank instructions are clamped to 7 (D7, log entry 16), `I`
stays under `Dxyn` and `Fx33` and, unless I_INCREMENT says x+1, under `Fx55` and `Fx65` (D6, log entry 6), LOW and HIGH
leave the buffer (D12, log entry 18), `Fx18` leaves the speaker (D19, log entry 19). `pc` is seen after its
pre-advance. -/
def Obligations.OnlyNamedInstructionsWrite : Prop :=
  ∀ (i : Instr) (s t : State), exec i s = .next t →
    (∀ k, writesReg i k = false → t.getV k = s.getV k) ∧
    (writesMem i = false → t.mem = s.mem ∧ s.SameMemory t) ∧
    (writesPc i = false → t.pc = s.pc) ∧
    (writesI i s.params = false → t.i = s.i) ∧
    (writesStack i = false → t.stack = s.stack ∧ t.sp = s.sp) ∧
    (writesDisplay i = false → t.display = s.display) ∧
    (writesExt i = false → t.ext = s.ext) ∧
    (writesDt i = false → t.dt = s.dt) ∧
    (writesSt i = false → t.st = s.st) ∧
    (writesWait i = false → t.wait = s.wait) ∧
    (writesHalt i = false → t.halt = s.halt) ∧
    (writesBank i = false → t.r = s.r) ∧
    t.acc = s.acc ∧ t.spk = s.spk ∧ t.keys = s.keys ∧ t.rnd = s.rnd ∧ t.draws = s.draws ∧
    t.phase = s.phase ∧ t.keyPoller = s.keyPoller ∧ t.agenda = s.agenda ∧ t.params = s.params

/-- R107: EXIT sets `HALT` and nothing else, in both modes; every later `step` changes nothing, and the timers
keep running. -/
def Obligations.ExitHalts : Prop :=
  ∀ s : State, ∃ t, exec .exit s = .next t ∧ t.halt = true ∧ t = { s with halt := t.halt } ∧ s.SameMemory t ∧
    (∀ inputs, s.phase ≠ .beforeInit → s.keyPoller = true → transact (.step inputs) t = .next t) ∧
    ∀ d, updateTime d t = { updateTime d s with halt := true }

/-! ## Control transfer (41_control_flow.md) -/

/-- R121, R127: the jumps set `pc` and nothing else, to `nnn` or to `(V0 + nnn) mod 4096`. -/
def Obligations.JumpsSetPc : Prop :=
  ∀ (nnn : Addr) (s : State),
    (∃ t, exec (.jp nnn) s = .next t ∧ t.pc = nnn ∧ OnlyPc s t) ∧
    ∃ t, exec (.jpV0 nnn) s = .next t ∧ t.pc.toNat = ((s.getV 0).toNat + nnn.toNat) % 4096 ∧ OnlyPc s t

/-- R123 to R126: the four skips on register values add 2 to the advanced `pc` when their condition holds, and
change nothing else. -/
def Obligations.RegisterSkips : Prop :=
  ∀ (x y : Reg) (kk : Byte) (s : State),
    (∃ t, exec (.seImm x kk) s = .next t ∧ OnlyPc s t ∧
      t.pc = if s.getV x = kk then s.pc + 2 else s.pc) ∧
    (∃ t, exec (.sneImm x kk) s = .next t ∧ OnlyPc s t ∧
      t.pc = if s.getV x = kk then s.pc else s.pc + 2) ∧
    (∃ t, exec (.seReg x y) s = .next t ∧ OnlyPc s t ∧
      t.pc = if s.getV x = s.getV y then s.pc + 2 else s.pc) ∧
    ∃ t, exec (.sneReg x y) s = .next t ∧ OnlyPc s t ∧
      t.pc = if s.getV x = s.getV y then s.pc else s.pc + 2

/-- R122: CALL takes its jump always; below 16 entries it first pushes the advanced `pc`; on a full stack
nothing is pushed (that last clause is the spec's decision D2). -/
def Obligations.CallPushesAndJumps : Prop :=
  ∀ (nnn : Addr) (s : State), ∃ t, exec (.call nnn) s = .next t ∧ OnlyStackAndPc s t ∧ t.pc = nnn ∧
    (∀ h : s.sp.val < 16, t.sp.val = s.sp.val + 1 ∧ t.stack[s.sp.val] = s.pc ∧
      ∀ k : Fin 16, k.val ≠ s.sp.val → t.stack[k] = s.stack[k]) ∧
    (s.sp.val = 16 → t.sp = s.sp ∧ t.stack = s.stack)

/-- R120: RET pops the last entry into `pc` and leaves the entry where it was; on an empty stack it changes
nothing (that last clause is the spec's decision D3). -/
def Obligations.RetPopsIntoPc : Prop :=
  ∀ s : State, ∃ t, exec .ret s = .next t ∧ OnlyStackAndPc s t ∧ t.stack = s.stack ∧
    (∀ h : 0 < s.sp.val, t.sp.val = s.sp.val - 1 ∧ t.pc = s.stack[s.sp.val - 1]'(by omega)) ∧
    (s.sp.val = 0 → t = s)

/-- The source's property P3 of 95_test_vectors.md: a return after a call, whatever the subroutine did to state
other than the stack, restores `pc` to the address after the call and `SP` to what it was (R120, R122). -/
def Obligations.ReturnAfterCall : Prop :=
  ∀ (nnn : Addr) (s t u : State), s.sp.val < 16 → exec (.call nnn) s = .next t → u.stack = t.stack →
    u.sp = t.sp → ∃ w, exec .ret u = .next w ∧ w.pc = s.pc ∧ w.sp = s.sp

/-! ## Registers and arithmetic (42_alu.md) -/

/-- R152, R153, R154: the loads and the immediate addition, with no flag: only `Vx` changes. -/
def Obligations.LoadsAndImmediateAdd : Prop :=
  ∀ (x y : Reg) (kk : Byte) (s : State),
    (∃ t, exec (.ldImm x kk) s = .next t ∧ OnlyReg x s t ∧ t.getV x = kk) ∧
    (∃ t, exec (.addImm x kk) s = .next t ∧ OnlyReg x s t ∧
      (t.getV x).toNat = ((s.getV x).toNat + kk.toNat) % 256) ∧
    ∃ t, exec (.ldReg x y) s = .next t ∧ OnlyReg x s t ∧ t.getV x = s.getV y

/-- OR, AND and XOR bit by bit (R155, R156, R157); that `VF` stays when `x` is not 15 is the spec's decision D5
(log entry 26). -/
def Obligations.BitwiseOperations : Prop :=
  ∀ (x y : Reg) (s : State),
    (∃ t, exec (.orReg x y) s = .next t ∧ OnlyReg x s t ∧
      ∀ j, (t.getV x).getLsbD j = ((s.getV x).getLsbD j || (s.getV y).getLsbD j)) ∧
    (∃ t, exec (.andReg x y) s = .next t ∧ OnlyReg x s t ∧
      ∀ j, (t.getV x).getLsbD j = ((s.getV x).getLsbD j && (s.getV y).getLsbD j)) ∧
    ∃ t, exec (.xorReg x y) s = .next t ∧ OnlyReg x s t ∧
      ∀ j, (t.getV x).getLsbD j = xor ((s.getV x).getLsbD j) ((s.getV y).getLsbD j)

/-- ADD: the sum mod 256 and the carry of the unmasked sum (R158); which of the two stays when `x` is 15 is the
parameter VF_DEST_ORDER (D4, U3, log entry 5). The carry also in its second form, the masked sum
below an operand (R164, which the spec derives). -/
def Obligations.AddSetsCarry : Prop :=
  ∀ (x y : Reg) (s : State), ∃ t, exec (.addReg x y) s = .next t ∧
    FlagOutcome x (((s.getV x).toNat + (s.getV y).toNat) % 256) ((s.getV x).toNat + (s.getV y).toNat > 255) s t ∧
    (x ≠ 15 → (t.getV 15 = 1 ↔ (t.getV x).toNat < (s.getV x).toNat))

/-- SUB and SUBN: the wrapped difference and the strict comparison (R159, R161); what stays with `x = 15` is the
parameter VF_DEST_ORDER (D4, U3, log entry 5). -/
def Obligations.SubtractionsCompareStrictly : Prop :=
  ∀ (x y : Reg) (s : State),
    (∃ t, exec (.subReg x y) s = .next t ∧
      FlagOutcome x (((s.getV x).toNat + 256 - (s.getV y).toNat) % 256) (s.getV x > s.getV y) s t) ∧
    ∃ t, exec (.subn x y) s = .next t ∧
      FlagOutcome x (((s.getV y).toNat + 256 - (s.getV x).toNat) % 256) (s.getV y > s.getV x) s t

/-- SHR and SHL: one place, the bit shifted out in `VF`, `Vy` not read (R160, R162); what stays with `x = 15`
is the parameter VF_DEST_ORDER (D4, U3, log entry 5). -/
def Obligations.ShiftsMoveOneBit : Prop :=
  ∀ (x y : Reg) (s : State),
    (∃ t, exec (.shr x y) s = .next t ∧
      FlagOutcome x ((s.getV x).toNat / 2) ((s.getV x).toNat % 2 = 1) s t) ∧
    ∃ t, exec (.shl x y) s = .next t ∧
      FlagOutcome x ((s.getV x).toNat * 2 % 256) ((s.getV x).toNat ≥ 128) s t

/-- RND: the byte this step sampled, masked bit by bit (R163; that the byte is an input under no law is the
spec's decision D21). `s.rnd` is free: the statement holds for every value of it. -/
def Obligations.RandomByteIsMasked : Prop :=
  ∀ (x : Reg) (kk : Byte) (s : State), ∃ t, exec (.rnd x kk) s = .next t ∧ OnlyReg x s t ∧
    ∀ j, (t.getV x).getLsbD j = (s.rnd.getLsbD j && kk.getLsbD j)

/-! ## Address register, loads and stores (43_memory_index.md) -/

/-- R180, R181, R182: what the instructions leave in `I`, and that they change nothing else, the flag included. -/
def Obligations.AddressRegisterLoads : Prop :=
  ∀ (x : Reg) (nnn : Addr) (s : State),
    (∃ t, exec (.ldI nnn) s = .next t ∧ OnlyI s t ∧ t.i = nnn) ∧
    (∃ t, exec (.addI x) s = .next t ∧ OnlyI s t ∧ t.i.toNat = (s.i.toNat + (s.getV x).toNat) % 4096) ∧
    ∃ t, exec (.ldFont x) s = .next t ∧ OnlyI s t ∧ t.i.toNat = 0x050 + (s.getV x).toNat % 16 * 5

/-- The large glyph's address (R183) for every value of the parameter EXT_FONT_BASE; with the value 0x0A0 that the
spec takes (D15, log entry 3) nothing wraps. -/
def Obligations.LargeGlyphAddress : Prop :=
  ∀ (x : Reg) (s : State), ∃ t, exec (.ldHFont x) s = .next t ∧ OnlyI s t ∧
    t.i.toNat = (s.params.extFontBase.toNat + (s.getV x).toNat % 16 * 10) % 4096 ∧
    (s.params = parametersTaken → t.i.toNat = 0x0A0 + (s.getV x).toNat % 16 * 10)

/-- `Fx33`: three decimal digits, the hundreds at `I`, and no other byte changed (R184); that `I` stays is the spec's
decision D6 (R189, log entry 6). -/
def Obligations.BcdStoresThreeDigits : Prop :=
  ∀ (x : Reg) (s : State), ∃ t, exec (.bcd x) s = .next t ∧
    OnlyMemoryAt (fun a => a = s.addrAt 0 ∨ a = s.addrAt 1 ∨ a = s.addrAt 2) s t ∧
    ((t.readByte (s.addrAt 0)).toNat * 100 + (t.readByte (s.addrAt 1)).toNat * 10 +
      (t.readByte (s.addrAt 2)).toNat = (s.getV x).toNat) ∧
    (t.readByte (s.addrAt 0)).toNat < 10 ∧ (t.readByte (s.addrAt 1)).toNat < 10 ∧
    (t.readByte (s.addrAt 2)).toNat < 10 ∧
    ∀ k, k < 3 → (s.addrAt k).toNat = (s.i.toNat + k) % 4096

/-- `Fx55`: `V0`..`Vx` from `I` on, addresses mod 4096, no other byte changed (R185); `I` stays, or is
`x + 1` more, as the parameter I_INCREMENT says (R189, D6, U4, log entry 6). -/
def Obligations.StoreRegistersAtI : Prop :=
  ∀ (x : Reg) (s : State), ∃ t, exec (.storeRegs x) s = .next t ∧
    t = { s with mem := t.mem, i := t.i } ∧ t.i.toNat = bulkI x s ∧
    (∀ a, (∀ k : Reg, k ≤ x → a ≠ s.addrAt k.val) → t.readByte a = s.readByte a) ∧
    ∀ k : Reg, k ≤ x → t.readByte (s.addrAt k.val) = s.getV k

/-- `Fx65`: `V0`..`Vx` from memory at `I` on, the other registers as before (R186); `I` stays, or is
`x + 1` more, as the parameter I_INCREMENT says (R189, D6, U4, log entry 6). -/
def Obligations.LoadRegistersFromI : Prop :=
  ∀ (x : Reg) (s : State), ∃ t, exec (.loadRegs x) s = .next t ∧
    t = { s with v := t.v, i := t.i } ∧ t.i.toNat = bulkI x s ∧ s.SameMemory t ∧
    ∀ k : Reg, t.getV k = if k ≤ x then s.readByte (s.addrAt k.val) else s.getV k

/-- Registers stored by `Fx55` come back by `Fx65`, whatever the registers hold in between, if every byte of memory
reads as the store left it and `I` is what it was before the store (R185, R186; for both values of I_INCREMENT, log
entry 6). -/
def Obligations.LoadAfterStoreRestoresRegisters : Prop :=
  ∀ (x : Reg) (s t u : State), exec (.storeRegs x) s = .next t → t.SameMemory u → u.i = s.i →
    ∃ w, exec (.loadRegs x) u = .next w ∧ ∀ k : Reg, k ≤ x → w.getV k = s.getV k

/-- `Fx75` and `Fx85` copy `V0`..`Vx` to and from the persistent bank and change nothing else (R187, R188); that
an `x` above 7 counts as 7 is the spec's decision D7 (log entry 16). -/
def Obligations.PersistentBankCopies : Prop :=
  ∀ (x : Reg) (s : State),
    (∃ t, exec (.storeBank x) s = .next t ∧ OnlyBank s t ∧
      ∀ k : Fin 8, t.getR k = if k.val ≤ x.val then s.getV (k.castLE (by decide)) else s.getR k) ∧
    ∃ t, exec (.loadBank x) s = .next t ∧ OnlyRegs s t ∧
      (∀ k : Fin 8, t.getV (k.castLE (by decide)) = if k.val ≤ x.val then s.getR k else s.getV (k.castLE (by decide))) ∧
      ∀ k : Reg, 8 ≤ k.val → t.getV k = s.getV k

/-! ## Display (44_display.md) -/

/-- CLS: every pixel reads 0, in the geometry of the moment and in the other (R220; that all 8192 cells are
cleared in both modes is the spec's decision D13). -/
def Obligations.ClearScreenClearsBothGeometries : Prop :=
  ∀ s : State, ∃ t, exec .cls s = .next t ∧ OnlyDisplay s t ∧ (∀ c r, t.pixel c r = false) ∧
    ∀ (mode : Bool) (c r : Nat), (t.setExt mode).pixel c r = false

/-- SCD: the rows move down by `n`, `n` rows of zeros come in at the top, in either mode (R221); that the cells
outside the W×H region stay is the spec's decision D14. -/
def Obligations.ScrollDownMovesRows : Prop :=
  ∀ (n : Nibble) (s : State), ∃ t, exec (.scd n) s = .next t ∧ OnlyDisplay s t ∧
    (∀ c r, c < widthOf s.ext → r < heightOf s.ext →
      t.pixel c r = if r ≥ n.toNat then s.pixel c (r - n.toNat) else false) ∧
    ∀ j, widthOf s.ext * heightOf s.ext ≤ j → t.display.cell j = s.display.cell j

/-- SCR and SCL: the columns move right or left by 4, in either mode, with zeros coming in (R222, R223); that the
cells outside the W×H region stay is the spec's decision D14. -/
def Obligations.SideScrollsMoveColumns : Prop :=
  ∀ s : State,
    (∃ t, exec .scr s = .next t ∧ OnlyDisplay s t ∧
      (∀ c r, c < widthOf s.ext → r < heightOf s.ext →
        t.pixel c r = if c ≥ 4 then s.pixel (c - 4) r else false) ∧
      ∀ j, widthOf s.ext * heightOf s.ext ≤ j → t.display.cell j = s.display.cell j) ∧
    ∃ t, exec .scl s = .next t ∧ OnlyDisplay s t ∧
      (∀ c r, c < widthOf s.ext → r < heightOf s.ext →
        t.pixel c r = if c + 4 < widthOf s.ext then s.pixel (c + 4) r else false) ∧
      ∀ j, widthOf s.ext * heightOf s.ext ≤ j → t.display.cell j = s.display.cell j

/-- LOW and HIGH set the mode and leave the buffer, so a pixel is seen again at the place its cell has under the
new row width, or is hidden (R224, R225, R218; no clear and no move is the spec's decision D12). -/
def Obligations.ModeSwitchReinterpretsCells : Prop :=
  ∀ s : State,
    (∃ t, exec .low s = .next t ∧ t = { s with ext := false } ∧ s.SameMemory t ∧
      (s.ext = true → ∀ c r, c < 128 → r < 64 → 128 * r + c < 2048 →
        t.pixel ((128 * r + c) % 64) ((128 * r + c) / 64) = s.pixel c r)) ∧
    ∃ t, exec .high s = .next t ∧ t = { s with ext := true } ∧ s.SameMemory t ∧
      (s.ext = false → ∀ c r, c < 64 → r < 32 →
        t.pixel ((64 * r + c) % 128) ((64 * r + c) / 128) = s.pixel c r)

/-- DRW, for every position, sprite and mode: each cell the sprite covers is inverted where the sprite's bit is 1,
every other cell stays, and `VF` is 1 exactly when a set bit met a cell that was 1. No two of the sprite's bits
share a cell, so neither the order of the loops nor a cell drawn earlier matters (R226; R227, which the spec
derives; bit order, wrap and the normal-mode `Dxy0` are its decisions D10 and D11, that `I` stays is D6; log
entries 6, 13, 17). -/
def Obligations.DrawXorsSpriteOntoDisplay : Prop :=
  ∀ (x y : Reg) (n : Nibble) (s : State), ∃ t, exec (.drw x y n) s = .next t ∧
    t = { s with v := t.v, display := t.display } ∧ s.SameMemory t ∧ (∀ k, k ≠ 15 → t.getV k = s.getV k) ∧
    (∀ r c, r < spriteRows s n → c < spriteCols s n →
      t.display.cell (spriteCell s x y r c) =
        xor (s.display.cell (spriteCell s x y r c)) (spriteAt s n r c)) ∧
    (∀ j, (∀ r c, r < spriteRows s n → c < spriteCols s n → j ≠ spriteCell s x y r c) →
      t.display.cell j = s.display.cell j) ∧
    ((∃ r c, r < spriteRows s n ∧ c < spriteCols s n ∧ spriteAt s n r c = true ∧
      s.display.cell (spriteCell s x y r c) = true) → t.getV 15 = 1) ∧
    ((∀ r c, r < spriteRows s n → c < spriteCols s n → spriteAt s n r c = true →
      s.display.cell (spriteCell s x y r c) = false) → t.getV 15 = 0) ∧
    ∀ r c r' c', r < spriteRows s n → c < spriteCols s n → r' < spriteRows s n → c' < spriteCols s n →
      spriteCell s x y r c = spriteCell s x y r' c' → r = r' ∧ c = c'

/-- The source's property P7 of 95_test_vectors.md: the same sprite drawn twice at the same place leaves the
display as it was, and the second draw reports a collision exactly when the first set some pixel (that the first
draw leaves `I` is the spec's decision D6, log entry 6). -/
def Obligations.DrawTwiceRestoresDisplay : Prop :=
  ∀ (x y : Reg) (n : Nibble) (s t : State), x ≠ 15 → y ≠ 15 → exec (.drw x y n) s = .next t →
    ∃ u, exec (.drw x y n) t = .next u ∧ (∀ j, u.display.cell j = s.display.cell j) ∧
      (u.getV 15 = 1 ↔ ∃ r c, r < spriteRows s n ∧ c < spriteCols s n ∧ spriteAt s n r c = true ∧
        s.display.cell (spriteCell s x y r c) = false)

/-- In normal mode no instruction but CLS touches the cells a 64×32 screen does not show (R210, R215 to R217,
R226; the spec's decisions D12 to D14). -/
def Obligations.HiddenCellsStay : Prop :=
  ∀ (i : Instr) (s t : State), s.ext = false → i ≠ .cls → exec i s = .next t →
    ∀ j, 2048 ≤ j → t.display.cell j = s.display.cell j

/-! ## Keys and timers (45_timers_keys.md, 60_exceptions.md) -/

/-- SKP and SKNP: the level of the key numbered by `Vx` in this step's sample (R253, R254); that only the low
nibble of `Vx` counts is the spec's decision D8 (log entry 16). -/
def Obligations.KeySkipsReadSampledLevel : Prop :=
  ∀ (x : Reg) (s : State),
    (∃ t, exec (.skp x) s = .next t ∧ OnlyPc s t ∧
      t.pc = if s.keys.getLsbD ((s.getV x).toNat % 16) = true then s.pc + 2 else s.pc) ∧
    ∃ t, exec (.sknp x) s = .next t ∧ OnlyPc s t ∧
      t.pc = if s.keys.getLsbD ((s.getV x).toNat % 16) = true then s.pc else s.pc + 2

/-- R255, R257: `Fx07` copies `DT` to `Vx` and `Fx15` copies `Vx` to `DT`; nothing else changes, the accumulator
included. -/
def Obligations.DelayTimerMoves : Prop :=
  ∀ (x : Reg) (s : State),
    (∃ t, exec (.ldFromDt x) s = .next t ∧ OnlyReg x s t ∧ t.getV x = s.dt) ∧
    ∃ t, exec (.ldDt x) s = .next t ∧ t.dt = s.getV x ∧ t = { s with dt := t.dt } ∧ s.SameMemory t

/-- `Fx18` copies `Vx` to `ST` (R258) and leaves the speaker latch (the spec's decision D19); `Fx0A` enters the
wait for register `x` and polls nothing in its own step (R256, the spec's decision D9). -/
def Obligations.SoundTimerAndKeyWaitEntry : Prop :=
  ∀ (x : Reg) (s : State),
    (∃ t, exec (.ldSt x) s = .next t ∧ t.st = s.getV x ∧ t = { s with st := t.st } ∧ s.SameMemory t) ∧
    ∃ t, exec (.ldKey x) s = .next t ∧ t.wait = .waiting x ∧ t = { s with wait := t.wait } ∧ s.SameMemory t

/-- The closed form of one `update_time` and of a whole history from an empty accumulator (R288, which the spec
derives from the loop of R286), for every positive quantum `q / p` ms, the parameter TIMER_QUANTUM_MS (U13); with the
50/3 that the spec takes these are R288's own numbers. The strict comparison is the spec's decision D18, log entry
4; the speaker at ticks only is D19, log entry 19. The transaction completes with it in every step state (R289,
D20). -/
def Obligations.TickCountClosedForm : Prop :=
  (∀ (d : Nat) (s : State), s.phase ≠ .beforeInit → transact (.updateTime d) s = .next (updateTime d s)) ∧
  (∀ (d : Nat) (s : State), 0 < s.params.quantumNum →
    let q := s.params.quantumNum
    let a := s.acc + s.params.quantumDen * d
    let k := if a ≤ q then 0 else (a - 1) / q
    let t := updateTime d s
    t.acc = a - q * k ∧ t.dt.toNat = s.dt.toNat - k ∧ t.st.toNat = s.st.toNat - k ∧
      t.spk = (if k = 0 then s.spk else decide (t.st.toNat > 0)) ∧
      t = { s with acc := t.acc, dt := t.dt, st := t.st, spk := t.spk } ∧ s.SameMemory t) ∧
  (∀ (ds : List Nat) (s : State), 0 < s.params.quantumNum → s.acc = 0 →
    let q := s.params.quantumNum
    let total := s.params.quantumDen * ds.sum
    let k := if total ≠ 0 ∧ total % q = 0 then total / q - 1 else total / q
    let t := ds.foldl (fun u d => updateTime d u) s
    t.acc = total - q * k ∧ t.dt.toNat = s.dt.toNat - k ∧ t.st.toNat = s.st.toNat - k) ∧
  parametersTaken.quantumNum = 50 ∧ parametersTaken.quantumDen = 3

/-- Time cut into pieces gives the same state as the same time in one piece, the speaker included (R286, R287), for
every positive quantum. -/
def Obligations.TimeMayBeCutIntoPieces : Prop :=
  ∀ (ds : List Nat) (s : State), 0 < s.params.quantumNum → s.acc ≤ s.params.quantumNum →
    ds.foldl (fun u d => updateTime d u) s = updateTime ds.sum s

/-- The timer engine's transaction completes and runs the same whether the machine runs, waits or is halted, and no
`step` ticks: it leaves
the accumulator and the speaker, and it writes the timers only by `Fx15` and `Fx18` (R100; R289, the spec's
decision D20). -/
def Obligations.TimersRunInEveryStepState : Prop :=
  (∀ (d : Nat) (s : State) (halted : Bool) (w : KeyWait),
    updateTime d { s with halt := halted, wait := w } = { updateTime d s with halt := halted, wait := w } ∧
    (s.phase ≠ .beforeInit → transact (.updateTime d) { s with halt := halted, wait := w } =
      .next { updateTime d s with halt := halted, wait := w })) ∧
  ∀ (inputs : Option (Keys × Byte)) (s t : State), stepTransaction inputs s = .next t →
    t.acc = s.acc ∧ t.spk = s.spk ∧
    ((∀ x, decode (wordAtPc s) ≠ .instr (.ldDt x)) → t.dt = s.dt) ∧
    ((∀ x, decode (wordAtPc s) ≠ .instr (.ldSt x)) → t.st = s.st)

/-! ## Reset, load and the host (70_reset_and_hazards.md, 60_exceptions.md) -/

/-- What reset leaves, element by element (R321), memory read byte by byte. The bytes of the fonts are free
constants (log entry 2); EXT_FONT_BASE 0x0A0, the large font at `init` and the speaker off are the spec's
decisions D15, D17 and D19. -/
def Obligations.ResetLeavesTableOfR321 : Prop :=
  (∀ a : Addr, State.reset.readByte a =
    if 0x050 ≤ a.toNat ∧ a.toNat ≤ 0x09F then Config.fontSmall (a.toNat - 0x050)
    else if 0x0A0 ≤ a.toNat ∧ a.toNat ≤ 0x13F then Config.fontLarge (a.toNat - 0x0A0) else 0) ∧
  (∀ k : Reg, State.reset.getV k = 0) ∧ State.reset.pc = 0x200 ∧ State.reset.i = 0 ∧
  (∀ k : Fin 16, State.reset.stack[k] = 0) ∧ State.reset.sp = 0 ∧ State.reset.dt = 0 ∧ State.reset.st = 0 ∧
  (∀ j, State.reset.display.cell j = false) ∧ State.reset.ext = false ∧ State.reset.wait = .running ∧
  (∀ k : Fin 8, State.reset.getR k = 0) ∧ State.reset.halt = false ∧ State.reset.acc = 0 ∧
  State.reset.spk = false ∧ State.reset.params = parametersTaken

/-- `init` in any state, halted, waiting or not yet initialised, gives the fifteen elements their reset values, and
never refuses (R320, R326), for every value of the parameters, which it leaves; memory is read byte by byte. That the
bank is zeroed and the large font copied is the spec's decision (log entry 28); that the large font stays where a
value of EXT_FONT_BASE makes the two overlap is the model's reading (log entry 3). A `load` is admitted afterwards
(R323; the phase is the model's form, log entry 9); that the sampled ports and their counter (log entry 7), the agenda
(log entry 8) and the poller's wiring (log entry 10) stay is the model's choice. -/
def Obligations.InitFromAnyState : Prop :=
  ∀ s : State, ∃ t, transact .init s = .next t ∧ t.mem = State.reset.mem ∧
    (∀ a, t.readByte a = byteAfterInit s.params a) ∧ t.params = s.params ∧
    t.v = State.reset.v ∧ t.pc = 0x200 ∧ t.i = 0 ∧ t.stack = State.reset.stack ∧ t.sp = 0 ∧ t.dt = 0 ∧
    t.st = 0 ∧ t.display = State.reset.display ∧ t.ext = false ∧ t.wait = .running ∧ t.r = State.reset.r ∧
    t.halt = false ∧ t.acc = 0 ∧ t.spk = false ∧ t.phase = .loadable ∧ t.keyPoller = s.keyPoller ∧
    t.agenda = s.agenda ∧ t.keys = s.keys ∧ t.rnd = s.rnd ∧ t.draws = s.draws

/-- `load` copies up to 3584 bytes to 0x200 and changes nothing else (R323); that it is refused when longer, or
outside the time between an `init` and the next `step`, is the spec's decision D26. -/
def Obligations.LoadCopiesProgram : Prop :=
  ∀ (bytes : List Byte) (s : State),
    (s.phase = .loadable → bytes.length ≤ 3584 → ∃ t, transact (.load bytes) s = .next t ∧
      (∀ (k : Nat) (h : k < bytes.length), t.readByte (BitVec.ofNat 12 (0x200 + k)) = bytes[k]) ∧
      OnlyMemoryAt (fun a => 0x200 ≤ a.toNat ∧ a.toNat < 0x200 + bytes.length) s t) ∧
    (s.phase = .loadable → 3584 < bytes.length → transact (.load bytes) s = .refused .romTooLong) ∧
    (s.phase = .started → transact (.load bytes) s = .refused .loadAfterStart)

/-- Before the first `init` only `init` and the wiring of the capabilities are admitted; without a key poller no
`step` is, and installing it changes no Machine state (R40, R292, R325: the spec's decision D27). -/
def Obligations.RefusalsBeforeInitAndPoller : Prop :=
  (∀ (s : State) (bytes : List Byte) (inputs : Option (Keys × Byte)) (d : Nat) (port : Port),
    s.phase = .beforeInit →
    transact (.load bytes) s = .refused .beforeInit ∧ transact (.step inputs) s = .refused .beforeInit ∧
    transact (.updateTime d) s = .refused .beforeInit ∧ transact (.read port) s = .refused .beforeInit ∧
    hostRead port s = .error .beforeInit) ∧
  (∀ (s : State) (inputs : Option (Keys × Byte)), s.phase ≠ .beforeInit → s.keyPoller = false →
    transact (.step inputs) s = .refused .noKeyPoller) ∧
  ∀ s : State, transact .setKeyPoller s = .next { s with keyPoller := true } ∧
    transact .setSpeaker s = .next s

/-- After an `init` every read gives the state's own value and changes nothing (R291; the spec's decisions D25 and
D34, log entries 25 and 28). -/
def Obligations.ReadsShowStateAndChangeNothing : Prop :=
  ∀ (s : State) (port : Port) (c r : Nat), s.phase ≠ .beforeInit →
    transact (.read port) s = .next s ∧
    hostRead .spk s = .ok (.bit s.spk) ∧ hostRead .dt s = .ok (.byte s.dt) ∧ hostRead .st s = .ok (.byte s.st) ∧
    hostRead .haltRequested s = .ok (.bit s.halt) ∧
    hostRead .geometry s = .ok (if s.ext then .size 128 64 else .size 64 32) ∧
    hostRead (.pixel c r) s = .ok (.bit
      (if s.ext then decide (c < 128) && decide (r < 64) && s.display.cell (r * 128 + c)
       else decide (c < 64) && decide (r < 32) && s.display.cell (r * 64 + c)))

/-! ## The whole machine -/

/-- The invariant holds at reset. -/
def Obligations.InvariantAtReset : Prop := State.reset.Inv

/-- Every transaction of every agent keeps the invariant: memory and display canonical, a positive quantum and at most
one of it in the accumulator, never halted and waiting at once (R51, R210, R283, R288); and it leaves the parameters
(log entry 29). -/
def Obligations.EveryStepKeepsInvariant : Prop :=
  ∀ s t : State, s.Inv → step s = .next t → t.Inv ∧ t.params = s.params

/-- Stale call-stack entries are observable by nothing: two states that differ only there answer every step alike
and still differ at most there (R27; D35). -/
def Obligations.StaleStackEntriesUnobservable : Prop :=
  ∀ s t : State, SameButStaleStack s t →
    (∀ s', step s = .next s' → ∃ t', step t = .next t' ∧ SameButStaleStack s' t') ∧
    ∀ why, step s = .refused why → step t = .refused why
end

