-- ==== Sys2Proof/Laws/State.lean ====
section
/-! SUPPORT. One lemma per field per named update of State, and what a register or a byte of memory reads
as after an update, so that no proof unfolds a record update. -/

namespace Sys2Proof.Machine

/-! ## setV -/

@[simp] theorem State.setV_mem (s : State) (x : Reg) (b : Byte) : (s.setV x b).mem = s.mem := rfl
@[simp] theorem State.setV_v (s : State) (x : Reg) (b : Byte) : (s.setV x b).v = s.v.set x b := rfl
@[simp] theorem State.setV_pc (s : State) (x : Reg) (b : Byte) : (s.setV x b).pc = s.pc := rfl
@[simp] theorem State.setV_i (s : State) (x : Reg) (b : Byte) : (s.setV x b).i = s.i := rfl
@[simp] theorem State.setV_stack (s : State) (x : Reg) (b : Byte) : (s.setV x b).stack = s.stack := rfl
@[simp] theorem State.setV_sp (s : State) (x : Reg) (b : Byte) : (s.setV x b).sp = s.sp := rfl
@[simp] theorem State.setV_dt (s : State) (x : Reg) (b : Byte) : (s.setV x b).dt = s.dt := rfl
@[simp] theorem State.setV_st (s : State) (x : Reg) (b : Byte) : (s.setV x b).st = s.st := rfl
@[simp] theorem State.setV_display (s : State) (x : Reg) (b : Byte) : (s.setV x b).display = s.display := rfl
@[simp] theorem State.setV_ext (s : State) (x : Reg) (b : Byte) : (s.setV x b).ext = s.ext := rfl
@[simp] theorem State.setV_wait (s : State) (x : Reg) (b : Byte) : (s.setV x b).wait = s.wait := rfl
@[simp] theorem State.setV_r (s : State) (x : Reg) (b : Byte) : (s.setV x b).r = s.r := rfl
@[simp] theorem State.setV_halt (s : State) (x : Reg) (b : Byte) : (s.setV x b).halt = s.halt := rfl
@[simp] theorem State.setV_acc (s : State) (x : Reg) (b : Byte) : (s.setV x b).acc = s.acc := rfl
@[simp] theorem State.setV_spk (s : State) (x : Reg) (b : Byte) : (s.setV x b).spk = s.spk := rfl
@[simp] theorem State.setV_keys (s : State) (x : Reg) (b : Byte) : (s.setV x b).keys = s.keys := rfl
@[simp] theorem State.setV_rnd (s : State) (x : Reg) (b : Byte) : (s.setV x b).rnd = s.rnd := rfl
@[simp] theorem State.setV_draws (s : State) (x : Reg) (b : Byte) : (s.setV x b).draws = s.draws := rfl
@[simp] theorem State.setV_phase (s : State) (x : Reg) (b : Byte) : (s.setV x b).phase = s.phase := rfl
@[simp] theorem State.setV_keyPoller (s : State) (x : Reg) (b : Byte) : (s.setV x b).keyPoller = s.keyPoller := rfl
@[simp] theorem State.setV_agenda (s : State) (x : Reg) (b : Byte) : (s.setV x b).agenda = s.agenda := rfl
@[simp] theorem State.setV_params (s : State) (x : Reg) (b : Byte) : (s.setV x b).params = s.params := rfl
@[simp] theorem State.setV_readByte (s : State) (x : Reg) (b : Byte) (c : Addr) :
    (s.setV x b).readByte c = s.readByte c := rfl
@[simp] theorem State.setV_addrAt (s : State) (x : Reg) (b : Byte) (j : Nat) : (s.setV x b).addrAt j = s.addrAt j := rfl

/-! ## setPc -/

@[simp] theorem State.setPc_mem (s : State) (a : Addr) : (s.setPc a).mem = s.mem := rfl
@[simp] theorem State.setPc_v (s : State) (a : Addr) : (s.setPc a).v = s.v := rfl
@[simp] theorem State.setPc_pc (s : State) (a : Addr) : (s.setPc a).pc = a := rfl
@[simp] theorem State.setPc_i (s : State) (a : Addr) : (s.setPc a).i = s.i := rfl
@[simp] theorem State.setPc_stack (s : State) (a : Addr) : (s.setPc a).stack = s.stack := rfl
@[simp] theorem State.setPc_sp (s : State) (a : Addr) : (s.setPc a).sp = s.sp := rfl
@[simp] theorem State.setPc_dt (s : State) (a : Addr) : (s.setPc a).dt = s.dt := rfl
@[simp] theorem State.setPc_st (s : State) (a : Addr) : (s.setPc a).st = s.st := rfl
@[simp] theorem State.setPc_display (s : State) (a : Addr) : (s.setPc a).display = s.display := rfl
@[simp] theorem State.setPc_ext (s : State) (a : Addr) : (s.setPc a).ext = s.ext := rfl
@[simp] theorem State.setPc_wait (s : State) (a : Addr) : (s.setPc a).wait = s.wait := rfl
@[simp] theorem State.setPc_r (s : State) (a : Addr) : (s.setPc a).r = s.r := rfl
@[simp] theorem State.setPc_halt (s : State) (a : Addr) : (s.setPc a).halt = s.halt := rfl
@[simp] theorem State.setPc_acc (s : State) (a : Addr) : (s.setPc a).acc = s.acc := rfl
@[simp] theorem State.setPc_spk (s : State) (a : Addr) : (s.setPc a).spk = s.spk := rfl
@[simp] theorem State.setPc_keys (s : State) (a : Addr) : (s.setPc a).keys = s.keys := rfl
@[simp] theorem State.setPc_rnd (s : State) (a : Addr) : (s.setPc a).rnd = s.rnd := rfl
@[simp] theorem State.setPc_draws (s : State) (a : Addr) : (s.setPc a).draws = s.draws := rfl
@[simp] theorem State.setPc_phase (s : State) (a : Addr) : (s.setPc a).phase = s.phase := rfl
@[simp] theorem State.setPc_keyPoller (s : State) (a : Addr) : (s.setPc a).keyPoller = s.keyPoller := rfl
@[simp] theorem State.setPc_agenda (s : State) (a : Addr) : (s.setPc a).agenda = s.agenda := rfl
@[simp] theorem State.setPc_params (s : State) (a : Addr) : (s.setPc a).params = s.params := rfl
@[simp] theorem State.setPc_readByte (s : State) (a : Addr) (c : Addr) :
    (s.setPc a).readByte c = s.readByte c := rfl
@[simp] theorem State.setPc_getV (s : State) (a : Addr) (y : Reg) : (s.setPc a).getV y = s.getV y := rfl
@[simp] theorem State.setPc_addrAt (s : State) (a : Addr) (j : Nat) : (s.setPc a).addrAt j = s.addrAt j := rfl

/-! ## advancePc -/

@[simp] theorem State.advancePc_mem (s : State) : (s.advancePc).mem = s.mem := rfl
@[simp] theorem State.advancePc_v (s : State) : (s.advancePc).v = s.v := rfl
@[simp] theorem State.advancePc_pc (s : State) : (s.advancePc).pc = s.pc + 2 := rfl
@[simp] theorem State.advancePc_i (s : State) : (s.advancePc).i = s.i := rfl
@[simp] theorem State.advancePc_stack (s : State) : (s.advancePc).stack = s.stack := rfl
@[simp] theorem State.advancePc_sp (s : State) : (s.advancePc).sp = s.sp := rfl
@[simp] theorem State.advancePc_dt (s : State) : (s.advancePc).dt = s.dt := rfl
@[simp] theorem State.advancePc_st (s : State) : (s.advancePc).st = s.st := rfl
@[simp] theorem State.advancePc_display (s : State) : (s.advancePc).display = s.display := rfl
@[simp] theorem State.advancePc_ext (s : State) : (s.advancePc).ext = s.ext := rfl
@[simp] theorem State.advancePc_wait (s : State) : (s.advancePc).wait = s.wait := rfl
@[simp] theorem State.advancePc_r (s : State) : (s.advancePc).r = s.r := rfl
@[simp] theorem State.advancePc_halt (s : State) : (s.advancePc).halt = s.halt := rfl
@[simp] theorem State.advancePc_acc (s : State) : (s.advancePc).acc = s.acc := rfl
@[simp] theorem State.advancePc_spk (s : State) : (s.advancePc).spk = s.spk := rfl
@[simp] theorem State.advancePc_keys (s : State) : (s.advancePc).keys = s.keys := rfl
@[simp] theorem State.advancePc_rnd (s : State) : (s.advancePc).rnd = s.rnd := rfl
@[simp] theorem State.advancePc_draws (s : State) : (s.advancePc).draws = s.draws := rfl
@[simp] theorem State.advancePc_phase (s : State) : (s.advancePc).phase = s.phase := rfl
@[simp] theorem State.advancePc_keyPoller (s : State) : (s.advancePc).keyPoller = s.keyPoller := rfl
@[simp] theorem State.advancePc_agenda (s : State) : (s.advancePc).agenda = s.agenda := rfl
@[simp] theorem State.advancePc_params (s : State) : (s.advancePc).params = s.params := rfl
@[simp] theorem State.advancePc_readByte (s : State) (c : Addr) :
    (s.advancePc).readByte c = s.readByte c := rfl
@[simp] theorem State.advancePc_getV (s : State) (y : Reg) : (s.advancePc).getV y = s.getV y := rfl
@[simp] theorem State.advancePc_addrAt (s : State) (j : Nat) : (s.advancePc).addrAt j = s.addrAt j := rfl

/-! ## setI -/

@[simp] theorem State.setI_mem (s : State) (a : Addr) : (s.setI a).mem = s.mem := rfl
@[simp] theorem State.setI_v (s : State) (a : Addr) : (s.setI a).v = s.v := rfl
@[simp] theorem State.setI_pc (s : State) (a : Addr) : (s.setI a).pc = s.pc := rfl
@[simp] theorem State.setI_i (s : State) (a : Addr) : (s.setI a).i = a := rfl
@[simp] theorem State.setI_stack (s : State) (a : Addr) : (s.setI a).stack = s.stack := rfl
@[simp] theorem State.setI_sp (s : State) (a : Addr) : (s.setI a).sp = s.sp := rfl
@[simp] theorem State.setI_dt (s : State) (a : Addr) : (s.setI a).dt = s.dt := rfl
@[simp] theorem State.setI_st (s : State) (a : Addr) : (s.setI a).st = s.st := rfl
@[simp] theorem State.setI_display (s : State) (a : Addr) : (s.setI a).display = s.display := rfl
@[simp] theorem State.setI_ext (s : State) (a : Addr) : (s.setI a).ext = s.ext := rfl
@[simp] theorem State.setI_wait (s : State) (a : Addr) : (s.setI a).wait = s.wait := rfl
@[simp] theorem State.setI_r (s : State) (a : Addr) : (s.setI a).r = s.r := rfl
@[simp] theorem State.setI_halt (s : State) (a : Addr) : (s.setI a).halt = s.halt := rfl
@[simp] theorem State.setI_acc (s : State) (a : Addr) : (s.setI a).acc = s.acc := rfl
@[simp] theorem State.setI_spk (s : State) (a : Addr) : (s.setI a).spk = s.spk := rfl
@[simp] theorem State.setI_keys (s : State) (a : Addr) : (s.setI a).keys = s.keys := rfl
@[simp] theorem State.setI_rnd (s : State) (a : Addr) : (s.setI a).rnd = s.rnd := rfl
@[simp] theorem State.setI_draws (s : State) (a : Addr) : (s.setI a).draws = s.draws := rfl
@[simp] theorem State.setI_phase (s : State) (a : Addr) : (s.setI a).phase = s.phase := rfl
@[simp] theorem State.setI_keyPoller (s : State) (a : Addr) : (s.setI a).keyPoller = s.keyPoller := rfl
@[simp] theorem State.setI_agenda (s : State) (a : Addr) : (s.setI a).agenda = s.agenda := rfl
@[simp] theorem State.setI_params (s : State) (a : Addr) : (s.setI a).params = s.params := rfl
@[simp] theorem State.setI_readByte (s : State) (a : Addr) (c : Addr) :
    (s.setI a).readByte c = s.readByte c := rfl
@[simp] theorem State.setI_getV (s : State) (a : Addr) (y : Reg) : (s.setI a).getV y = s.getV y := rfl

/-! ## writeByte -/

@[simp] theorem State.writeByte_mem (s : State) (a : Addr) (b : Byte) : (s.writeByte a b).mem = Memory.write s.params.extFontBase s.mem a.toNat b := rfl
@[simp] theorem State.writeByte_v (s : State) (a : Addr) (b : Byte) : (s.writeByte a b).v = s.v := rfl
@[simp] theorem State.writeByte_pc (s : State) (a : Addr) (b : Byte) : (s.writeByte a b).pc = s.pc := rfl
@[simp] theorem State.writeByte_i (s : State) (a : Addr) (b : Byte) : (s.writeByte a b).i = s.i := rfl
@[simp] theorem State.writeByte_stack (s : State) (a : Addr) (b : Byte) : (s.writeByte a b).stack = s.stack := rfl
@[simp] theorem State.writeByte_sp (s : State) (a : Addr) (b : Byte) : (s.writeByte a b).sp = s.sp := rfl
@[simp] theorem State.writeByte_dt (s : State) (a : Addr) (b : Byte) : (s.writeByte a b).dt = s.dt := rfl
@[simp] theorem State.writeByte_st (s : State) (a : Addr) (b : Byte) : (s.writeByte a b).st = s.st := rfl
@[simp] theorem State.writeByte_display (s : State) (a : Addr) (b : Byte) : (s.writeByte a b).display = s.display := rfl
@[simp] theorem State.writeByte_ext (s : State) (a : Addr) (b : Byte) : (s.writeByte a b).ext = s.ext := rfl
@[simp] theorem State.writeByte_wait (s : State) (a : Addr) (b : Byte) : (s.writeByte a b).wait = s.wait := rfl
@[simp] theorem State.writeByte_r (s : State) (a : Addr) (b : Byte) : (s.writeByte a b).r = s.r := rfl
@[simp] theorem State.writeByte_halt (s : State) (a : Addr) (b : Byte) : (s.writeByte a b).halt = s.halt := rfl
@[simp] theorem State.writeByte_acc (s : State) (a : Addr) (b : Byte) : (s.writeByte a b).acc = s.acc := rfl
@[simp] theorem State.writeByte_spk (s : State) (a : Addr) (b : Byte) : (s.writeByte a b).spk = s.spk := rfl
@[simp] theorem State.writeByte_keys (s : State) (a : Addr) (b : Byte) : (s.writeByte a b).keys = s.keys := rfl
@[simp] theorem State.writeByte_rnd (s : State) (a : Addr) (b : Byte) : (s.writeByte a b).rnd = s.rnd := rfl
@[simp] theorem State.writeByte_draws (s : State) (a : Addr) (b : Byte) : (s.writeByte a b).draws = s.draws := rfl
@[simp] theorem State.writeByte_phase (s : State) (a : Addr) (b : Byte) : (s.writeByte a b).phase = s.phase := rfl
@[simp] theorem State.writeByte_keyPoller (s : State) (a : Addr) (b : Byte) : (s.writeByte a b).keyPoller = s.keyPoller := rfl
@[simp] theorem State.writeByte_agenda (s : State) (a : Addr) (b : Byte) : (s.writeByte a b).agenda = s.agenda := rfl
@[simp] theorem State.writeByte_params (s : State) (a : Addr) (b : Byte) : (s.writeByte a b).params = s.params := rfl
@[simp] theorem State.writeByte_getV (s : State) (a : Addr) (b : Byte) (y : Reg) : (s.writeByte a b).getV y = s.getV y := rfl
@[simp] theorem State.writeByte_addrAt (s : State) (a : Addr) (b : Byte) (j : Nat) : (s.writeByte a b).addrAt j = s.addrAt j := rfl

/-! ## setDisplay -/

@[simp] theorem State.setDisplay_mem (s : State) (d : Display) : (s.setDisplay d).mem = s.mem := rfl
@[simp] theorem State.setDisplay_v (s : State) (d : Display) : (s.setDisplay d).v = s.v := rfl
@[simp] theorem State.setDisplay_pc (s : State) (d : Display) : (s.setDisplay d).pc = s.pc := rfl
@[simp] theorem State.setDisplay_i (s : State) (d : Display) : (s.setDisplay d).i = s.i := rfl
@[simp] theorem State.setDisplay_stack (s : State) (d : Display) : (s.setDisplay d).stack = s.stack := rfl
@[simp] theorem State.setDisplay_sp (s : State) (d : Display) : (s.setDisplay d).sp = s.sp := rfl
@[simp] theorem State.setDisplay_dt (s : State) (d : Display) : (s.setDisplay d).dt = s.dt := rfl
@[simp] theorem State.setDisplay_st (s : State) (d : Display) : (s.setDisplay d).st = s.st := rfl
@[simp] theorem State.setDisplay_display (s : State) (d : Display) : (s.setDisplay d).display = d := rfl
@[simp] theorem State.setDisplay_ext (s : State) (d : Display) : (s.setDisplay d).ext = s.ext := rfl
@[simp] theorem State.setDisplay_wait (s : State) (d : Display) : (s.setDisplay d).wait = s.wait := rfl
@[simp] theorem State.setDisplay_r (s : State) (d : Display) : (s.setDisplay d).r = s.r := rfl
@[simp] theorem State.setDisplay_halt (s : State) (d : Display) : (s.setDisplay d).halt = s.halt := rfl
@[simp] theorem State.setDisplay_acc (s : State) (d : Display) : (s.setDisplay d).acc = s.acc := rfl
@[simp] theorem State.setDisplay_spk (s : State) (d : Display) : (s.setDisplay d).spk = s.spk := rfl
@[simp] theorem State.setDisplay_keys (s : State) (d : Display) : (s.setDisplay d).keys = s.keys := rfl
@[simp] theorem State.setDisplay_rnd (s : State) (d : Display) : (s.setDisplay d).rnd = s.rnd := rfl
@[simp] theorem State.setDisplay_draws (s : State) (d : Display) : (s.setDisplay d).draws = s.draws := rfl
@[simp] theorem State.setDisplay_phase (s : State) (d : Display) : (s.setDisplay d).phase = s.phase := rfl
@[simp] theorem State.setDisplay_keyPoller (s : State) (d : Display) : (s.setDisplay d).keyPoller = s.keyPoller := rfl
@[simp] theorem State.setDisplay_agenda (s : State) (d : Display) : (s.setDisplay d).agenda = s.agenda := rfl
@[simp] theorem State.setDisplay_params (s : State) (d : Display) : (s.setDisplay d).params = s.params := rfl
@[simp] theorem State.setDisplay_readByte (s : State) (d : Display) (c : Addr) :
    (s.setDisplay d).readByte c = s.readByte c := rfl
@[simp] theorem State.setDisplay_getV (s : State) (d : Display) (y : Reg) : (s.setDisplay d).getV y = s.getV y := rfl
@[simp] theorem State.setDisplay_addrAt (s : State) (d : Display) (j : Nat) : (s.setDisplay d).addrAt j = s.addrAt j := rfl

/-! ## setDt -/

@[simp] theorem State.setDt_mem (s : State) (b : Byte) : (s.setDt b).mem = s.mem := rfl
@[simp] theorem State.setDt_v (s : State) (b : Byte) : (s.setDt b).v = s.v := rfl
@[simp] theorem State.setDt_pc (s : State) (b : Byte) : (s.setDt b).pc = s.pc := rfl
@[simp] theorem State.setDt_i (s : State) (b : Byte) : (s.setDt b).i = s.i := rfl
@[simp] theorem State.setDt_stack (s : State) (b : Byte) : (s.setDt b).stack = s.stack := rfl
@[simp] theorem State.setDt_sp (s : State) (b : Byte) : (s.setDt b).sp = s.sp := rfl
@[simp] theorem State.setDt_dt (s : State) (b : Byte) : (s.setDt b).dt = b := rfl
@[simp] theorem State.setDt_st (s : State) (b : Byte) : (s.setDt b).st = s.st := rfl
@[simp] theorem State.setDt_display (s : State) (b : Byte) : (s.setDt b).display = s.display := rfl
@[simp] theorem State.setDt_ext (s : State) (b : Byte) : (s.setDt b).ext = s.ext := rfl
@[simp] theorem State.setDt_wait (s : State) (b : Byte) : (s.setDt b).wait = s.wait := rfl
@[simp] theorem State.setDt_r (s : State) (b : Byte) : (s.setDt b).r = s.r := rfl
@[simp] theorem State.setDt_halt (s : State) (b : Byte) : (s.setDt b).halt = s.halt := rfl
@[simp] theorem State.setDt_acc (s : State) (b : Byte) : (s.setDt b).acc = s.acc := rfl
@[simp] theorem State.setDt_spk (s : State) (b : Byte) : (s.setDt b).spk = s.spk := rfl
@[simp] theorem State.setDt_keys (s : State) (b : Byte) : (s.setDt b).keys = s.keys := rfl
@[simp] theorem State.setDt_rnd (s : State) (b : Byte) : (s.setDt b).rnd = s.rnd := rfl
@[simp] theorem State.setDt_draws (s : State) (b : Byte) : (s.setDt b).draws = s.draws := rfl
@[simp] theorem State.setDt_phase (s : State) (b : Byte) : (s.setDt b).phase = s.phase := rfl
@[simp] theorem State.setDt_keyPoller (s : State) (b : Byte) : (s.setDt b).keyPoller = s.keyPoller := rfl
@[simp] theorem State.setDt_agenda (s : State) (b : Byte) : (s.setDt b).agenda = s.agenda := rfl
@[simp] theorem State.setDt_params (s : State) (b : Byte) : (s.setDt b).params = s.params := rfl
@[simp] theorem State.setDt_readByte (s : State) (b : Byte) (c : Addr) :
    (s.setDt b).readByte c = s.readByte c := rfl
@[simp] theorem State.setDt_getV (s : State) (b : Byte) (y : Reg) : (s.setDt b).getV y = s.getV y := rfl
@[simp] theorem State.setDt_addrAt (s : State) (b : Byte) (j : Nat) : (s.setDt b).addrAt j = s.addrAt j := rfl

/-! ## setSt -/

@[simp] theorem State.setSt_mem (s : State) (b : Byte) : (s.setSt b).mem = s.mem := rfl
@[simp] theorem State.setSt_v (s : State) (b : Byte) : (s.setSt b).v = s.v := rfl
@[simp] theorem State.setSt_pc (s : State) (b : Byte) : (s.setSt b).pc = s.pc := rfl
@[simp] theorem State.setSt_i (s : State) (b : Byte) : (s.setSt b).i = s.i := rfl
@[simp] theorem State.setSt_stack (s : State) (b : Byte) : (s.setSt b).stack = s.stack := rfl
@[simp] theorem State.setSt_sp (s : State) (b : Byte) : (s.setSt b).sp = s.sp := rfl
@[simp] theorem State.setSt_dt (s : State) (b : Byte) : (s.setSt b).dt = s.dt := rfl
@[simp] theorem State.setSt_st (s : State) (b : Byte) : (s.setSt b).st = b := rfl
@[simp] theorem State.setSt_display (s : State) (b : Byte) : (s.setSt b).display = s.display := rfl
@[simp] theorem State.setSt_ext (s : State) (b : Byte) : (s.setSt b).ext = s.ext := rfl
@[simp] theorem State.setSt_wait (s : State) (b : Byte) : (s.setSt b).wait = s.wait := rfl
@[simp] theorem State.setSt_r (s : State) (b : Byte) : (s.setSt b).r = s.r := rfl
@[simp] theorem State.setSt_halt (s : State) (b : Byte) : (s.setSt b).halt = s.halt := rfl
@[simp] theorem State.setSt_acc (s : State) (b : Byte) : (s.setSt b).acc = s.acc := rfl
@[simp] theorem State.setSt_spk (s : State) (b : Byte) : (s.setSt b).spk = s.spk := rfl
@[simp] theorem State.setSt_keys (s : State) (b : Byte) : (s.setSt b).keys = s.keys := rfl
@[simp] theorem State.setSt_rnd (s : State) (b : Byte) : (s.setSt b).rnd = s.rnd := rfl
@[simp] theorem State.setSt_draws (s : State) (b : Byte) : (s.setSt b).draws = s.draws := rfl
@[simp] theorem State.setSt_phase (s : State) (b : Byte) : (s.setSt b).phase = s.phase := rfl
@[simp] theorem State.setSt_keyPoller (s : State) (b : Byte) : (s.setSt b).keyPoller = s.keyPoller := rfl
@[simp] theorem State.setSt_agenda (s : State) (b : Byte) : (s.setSt b).agenda = s.agenda := rfl
@[simp] theorem State.setSt_params (s : State) (b : Byte) : (s.setSt b).params = s.params := rfl
@[simp] theorem State.setSt_readByte (s : State) (b : Byte) (c : Addr) :
    (s.setSt b).readByte c = s.readByte c := rfl
@[simp] theorem State.setSt_getV (s : State) (b : Byte) (y : Reg) : (s.setSt b).getV y = s.getV y := rfl
@[simp] theorem State.setSt_addrAt (s : State) (b : Byte) (j : Nat) : (s.setSt b).addrAt j = s.addrAt j := rfl

/-! ## setExt -/

@[simp] theorem State.setExt_mem (s : State) (b : Bool) : (s.setExt b).mem = s.mem := rfl
@[simp] theorem State.setExt_v (s : State) (b : Bool) : (s.setExt b).v = s.v := rfl
@[simp] theorem State.setExt_pc (s : State) (b : Bool) : (s.setExt b).pc = s.pc := rfl
@[simp] theorem State.setExt_i (s : State) (b : Bool) : (s.setExt b).i = s.i := rfl
@[simp] theorem State.setExt_stack (s : State) (b : Bool) : (s.setExt b).stack = s.stack := rfl
@[simp] theorem State.setExt_sp (s : State) (b : Bool) : (s.setExt b).sp = s.sp := rfl
@[simp] theorem State.setExt_dt (s : State) (b : Bool) : (s.setExt b).dt = s.dt := rfl
@[simp] theorem State.setExt_st (s : State) (b : Bool) : (s.setExt b).st = s.st := rfl
@[simp] theorem State.setExt_display (s : State) (b : Bool) : (s.setExt b).display = s.display := rfl
@[simp] theorem State.setExt_ext (s : State) (b : Bool) : (s.setExt b).ext = b := rfl
@[simp] theorem State.setExt_wait (s : State) (b : Bool) : (s.setExt b).wait = s.wait := rfl
@[simp] theorem State.setExt_r (s : State) (b : Bool) : (s.setExt b).r = s.r := rfl
@[simp] theorem State.setExt_halt (s : State) (b : Bool) : (s.setExt b).halt = s.halt := rfl
@[simp] theorem State.setExt_acc (s : State) (b : Bool) : (s.setExt b).acc = s.acc := rfl
@[simp] theorem State.setExt_spk (s : State) (b : Bool) : (s.setExt b).spk = s.spk := rfl
@[simp] theorem State.setExt_keys (s : State) (b : Bool) : (s.setExt b).keys = s.keys := rfl
@[simp] theorem State.setExt_rnd (s : State) (b : Bool) : (s.setExt b).rnd = s.rnd := rfl
@[simp] theorem State.setExt_draws (s : State) (b : Bool) : (s.setExt b).draws = s.draws := rfl
@[simp] theorem State.setExt_phase (s : State) (b : Bool) : (s.setExt b).phase = s.phase := rfl
@[simp] theorem State.setExt_keyPoller (s : State) (b : Bool) : (s.setExt b).keyPoller = s.keyPoller := rfl
@[simp] theorem State.setExt_agenda (s : State) (b : Bool) : (s.setExt b).agenda = s.agenda := rfl
@[simp] theorem State.setExt_params (s : State) (b : Bool) : (s.setExt b).params = s.params := rfl
@[simp] theorem State.setExt_readByte (s : State) (b : Bool) (c : Addr) :
    (s.setExt b).readByte c = s.readByte c := rfl
@[simp] theorem State.setExt_getV (s : State) (b : Bool) (y : Reg) : (s.setExt b).getV y = s.getV y := rfl
@[simp] theorem State.setExt_addrAt (s : State) (b : Bool) (j : Nat) : (s.setExt b).addrAt j = s.addrAt j := rfl

/-! ## setWait -/

@[simp] theorem State.setWait_mem (s : State) (w : KeyWait) : (s.setWait w).mem = s.mem := rfl
@[simp] theorem State.setWait_v (s : State) (w : KeyWait) : (s.setWait w).v = s.v := rfl
@[simp] theorem State.setWait_pc (s : State) (w : KeyWait) : (s.setWait w).pc = s.pc := rfl
@[simp] theorem State.setWait_i (s : State) (w : KeyWait) : (s.setWait w).i = s.i := rfl
@[simp] theorem State.setWait_stack (s : State) (w : KeyWait) : (s.setWait w).stack = s.stack := rfl
@[simp] theorem State.setWait_sp (s : State) (w : KeyWait) : (s.setWait w).sp = s.sp := rfl
@[simp] theorem State.setWait_dt (s : State) (w : KeyWait) : (s.setWait w).dt = s.dt := rfl
@[simp] theorem State.setWait_st (s : State) (w : KeyWait) : (s.setWait w).st = s.st := rfl
@[simp] theorem State.setWait_display (s : State) (w : KeyWait) : (s.setWait w).display = s.display := rfl
@[simp] theorem State.setWait_ext (s : State) (w : KeyWait) : (s.setWait w).ext = s.ext := rfl
@[simp] theorem State.setWait_wait (s : State) (w : KeyWait) : (s.setWait w).wait = w := rfl
@[simp] theorem State.setWait_r (s : State) (w : KeyWait) : (s.setWait w).r = s.r := rfl
@[simp] theorem State.setWait_halt (s : State) (w : KeyWait) : (s.setWait w).halt = s.halt := rfl
@[simp] theorem State.setWait_acc (s : State) (w : KeyWait) : (s.setWait w).acc = s.acc := rfl
@[simp] theorem State.setWait_spk (s : State) (w : KeyWait) : (s.setWait w).spk = s.spk := rfl
@[simp] theorem State.setWait_keys (s : State) (w : KeyWait) : (s.setWait w).keys = s.keys := rfl
@[simp] theorem State.setWait_rnd (s : State) (w : KeyWait) : (s.setWait w).rnd = s.rnd := rfl
@[simp] theorem State.setWait_draws (s : State) (w : KeyWait) : (s.setWait w).draws = s.draws := rfl
@[simp] theorem State.setWait_phase (s : State) (w : KeyWait) : (s.setWait w).phase = s.phase := rfl
@[simp] theorem State.setWait_keyPoller (s : State) (w : KeyWait) : (s.setWait w).keyPoller = s.keyPoller := rfl
@[simp] theorem State.setWait_agenda (s : State) (w : KeyWait) : (s.setWait w).agenda = s.agenda := rfl
@[simp] theorem State.setWait_params (s : State) (w : KeyWait) : (s.setWait w).params = s.params := rfl
@[simp] theorem State.setWait_readByte (s : State) (w : KeyWait) (c : Addr) :
    (s.setWait w).readByte c = s.readByte c := rfl
@[simp] theorem State.setWait_getV (s : State) (w : KeyWait) (y : Reg) : (s.setWait w).getV y = s.getV y := rfl
@[simp] theorem State.setWait_addrAt (s : State) (w : KeyWait) (j : Nat) : (s.setWait w).addrAt j = s.addrAt j := rfl

/-! ## setHalt -/

@[simp] theorem State.setHalt_mem (s : State) : (s.setHalt).mem = s.mem := rfl
@[simp] theorem State.setHalt_v (s : State) : (s.setHalt).v = s.v := rfl
@[simp] theorem State.setHalt_pc (s : State) : (s.setHalt).pc = s.pc := rfl
@[simp] theorem State.setHalt_i (s : State) : (s.setHalt).i = s.i := rfl
@[simp] theorem State.setHalt_stack (s : State) : (s.setHalt).stack = s.stack := rfl
@[simp] theorem State.setHalt_sp (s : State) : (s.setHalt).sp = s.sp := rfl
@[simp] theorem State.setHalt_dt (s : State) : (s.setHalt).dt = s.dt := rfl
@[simp] theorem State.setHalt_st (s : State) : (s.setHalt).st = s.st := rfl
@[simp] theorem State.setHalt_display (s : State) : (s.setHalt).display = s.display := rfl
@[simp] theorem State.setHalt_ext (s : State) : (s.setHalt).ext = s.ext := rfl
@[simp] theorem State.setHalt_wait (s : State) : (s.setHalt).wait = s.wait := rfl
@[simp] theorem State.setHalt_r (s : State) : (s.setHalt).r = s.r := rfl
@[simp] theorem State.setHalt_halt (s : State) : (s.setHalt).halt = true := rfl
@[simp] theorem State.setHalt_acc (s : State) : (s.setHalt).acc = s.acc := rfl
@[simp] theorem State.setHalt_spk (s : State) : (s.setHalt).spk = s.spk := rfl
@[simp] theorem State.setHalt_keys (s : State) : (s.setHalt).keys = s.keys := rfl
@[simp] theorem State.setHalt_rnd (s : State) : (s.setHalt).rnd = s.rnd := rfl
@[simp] theorem State.setHalt_draws (s : State) : (s.setHalt).draws = s.draws := rfl
@[simp] theorem State.setHalt_phase (s : State) : (s.setHalt).phase = s.phase := rfl
@[simp] theorem State.setHalt_keyPoller (s : State) : (s.setHalt).keyPoller = s.keyPoller := rfl
@[simp] theorem State.setHalt_agenda (s : State) : (s.setHalt).agenda = s.agenda := rfl
@[simp] theorem State.setHalt_params (s : State) : (s.setHalt).params = s.params := rfl
@[simp] theorem State.setHalt_readByte (s : State) (c : Addr) :
    (s.setHalt).readByte c = s.readByte c := rfl
@[simp] theorem State.setHalt_getV (s : State) (y : Reg) : (s.setHalt).getV y = s.getV y := rfl
@[simp] theorem State.setHalt_addrAt (s : State) (j : Nat) : (s.setHalt).addrAt j = s.addrAt j := rfl

/-! ## setR -/

@[simp] theorem State.setR_mem (s : State) (k : Fin 8) (b : Byte) : (s.setR k b).mem = s.mem := rfl
@[simp] theorem State.setR_v (s : State) (k : Fin 8) (b : Byte) : (s.setR k b).v = s.v := rfl
@[simp] theorem State.setR_pc (s : State) (k : Fin 8) (b : Byte) : (s.setR k b).pc = s.pc := rfl
@[simp] theorem State.setR_i (s : State) (k : Fin 8) (b : Byte) : (s.setR k b).i = s.i := rfl
@[simp] theorem State.setR_stack (s : State) (k : Fin 8) (b : Byte) : (s.setR k b).stack = s.stack := rfl
@[simp] theorem State.setR_sp (s : State) (k : Fin 8) (b : Byte) : (s.setR k b).sp = s.sp := rfl
@[simp] theorem State.setR_dt (s : State) (k : Fin 8) (b : Byte) : (s.setR k b).dt = s.dt := rfl
@[simp] theorem State.setR_st (s : State) (k : Fin 8) (b : Byte) : (s.setR k b).st = s.st := rfl
@[simp] theorem State.setR_display (s : State) (k : Fin 8) (b : Byte) : (s.setR k b).display = s.display := rfl
@[simp] theorem State.setR_ext (s : State) (k : Fin 8) (b : Byte) : (s.setR k b).ext = s.ext := rfl
@[simp] theorem State.setR_wait (s : State) (k : Fin 8) (b : Byte) : (s.setR k b).wait = s.wait := rfl
@[simp] theorem State.setR_r (s : State) (k : Fin 8) (b : Byte) : (s.setR k b).r = s.r.set k b := rfl
@[simp] theorem State.setR_halt (s : State) (k : Fin 8) (b : Byte) : (s.setR k b).halt = s.halt := rfl
@[simp] theorem State.setR_acc (s : State) (k : Fin 8) (b : Byte) : (s.setR k b).acc = s.acc := rfl
@[simp] theorem State.setR_spk (s : State) (k : Fin 8) (b : Byte) : (s.setR k b).spk = s.spk := rfl
@[simp] theorem State.setR_keys (s : State) (k : Fin 8) (b : Byte) : (s.setR k b).keys = s.keys := rfl
@[simp] theorem State.setR_rnd (s : State) (k : Fin 8) (b : Byte) : (s.setR k b).rnd = s.rnd := rfl
@[simp] theorem State.setR_draws (s : State) (k : Fin 8) (b : Byte) : (s.setR k b).draws = s.draws := rfl
@[simp] theorem State.setR_phase (s : State) (k : Fin 8) (b : Byte) : (s.setR k b).phase = s.phase := rfl
@[simp] theorem State.setR_keyPoller (s : State) (k : Fin 8) (b : Byte) : (s.setR k b).keyPoller = s.keyPoller := rfl
@[simp] theorem State.setR_agenda (s : State) (k : Fin 8) (b : Byte) : (s.setR k b).agenda = s.agenda := rfl
@[simp] theorem State.setR_params (s : State) (k : Fin 8) (b : Byte) : (s.setR k b).params = s.params := rfl
@[simp] theorem State.setR_readByte (s : State) (k : Fin 8) (b : Byte) (c : Addr) :
    (s.setR k b).readByte c = s.readByte c := rfl
@[simp] theorem State.setR_getV (s : State) (k : Fin 8) (b : Byte) (y : Reg) : (s.setR k b).getV y = s.getV y := rfl
@[simp] theorem State.setR_addrAt (s : State) (k : Fin 8) (b : Byte) (j : Nat) : (s.setR k b).addrAt j = s.addrAt j := rfl

/-! ## Registers -/

/-- A register after a write of a register. -/
theorem State.getV_setV (s : State) (x y : Reg) (b : Byte) :
    (s.setV x b).getV y = if y = x then b else s.getV y := by
  simp only [State.getV, State.setV, Fin.getElem_fin, Vector.getElem_set]
  by_cases h : y = x
  · simp [h]
  · rw [if_neg fun e => h (Fin.ext e.symm), if_neg h]

@[simp] theorem State.getV_setV_same (s : State) (x : Reg) (b : Byte) : (s.setV x b).getV x = b := by
  simp [State.getV_setV]

theorem State.getV_setV_other (s : State) (x y : Reg) (b : Byte) (h : y ≠ x) :
    (s.setV x b).getV y = s.getV y := by
  simp [State.getV_setV, h]

/-- A persistent register after a write of one. -/
theorem State.getR_setR (s : State) (j k : Fin 8) (b : Byte) :
    (s.setR k b).getR j = if j = k then b else s.getR j := by
  simp only [State.getR, State.setR, Fin.getElem_fin, Vector.getElem_set]
  by_cases h : j = k
  · simp [h]
  · rw [if_neg fun e => h (Fin.ext e.symm), if_neg h]

/-! ## The flag -/

/-- `VF` and the other registers after a flag is written. -/
theorem State.getV_setFlag (s : State) (flag : Bool) (y : Reg) :
    (s.setFlag flag).getV y = if y = 15 then flagByte flag else s.getV y := State.getV_setV s 15 y _

/-- A flag write changes `V` only. -/
theorem State.setFlag_frame (s : State) (flag : Bool) :
    s.setFlag flag = { s with v := (s.setFlag flag).v } := rfl

/-- `Vx` and `VF`: the result in any other `Vx`; with `x = 15` the flag or the result as `VF_DEST_ORDER` says; the
rest as before (R151). -/
theorem State.getV_setVThenFlag (s : State) (x : Reg) (result : Byte) (flag : Bool) (y : Reg) :
    (s.setVThenFlag x result flag).getV y =
      if y = 15 then (if x = 15 ∧ s.params.vfDestOrder = .resultWins then result else flagByte flag)
      else if y = x then result else s.getV y := by
  unfold State.setVThenFlag
  cases s.params.vfDestOrder with
  | flagWins => simp [State.getV_setFlag, State.getV_setV]
  | resultWins =>
    simp only [State.getV_setFlag, State.getV_setV]
    by_cases hy : y = 15
    · by_cases hx : x = 15 <;> simp [hy, hx, eq_comm]
    · simp [hy]

/-- The two writes change `V` only. -/
theorem State.setVThenFlag_frame (s : State) (x : Reg) (result : Byte) (flag : Bool) :
    s.setVThenFlag x result flag = { s with v := (s.setVThenFlag x result flag).v } := by
  unfold State.setVThenFlag
  cases s.params.vfDestOrder <;> rfl

/-! ## The call stack and the sampled ports -/

/-- A push below the limit: the entry at `SP`, the count one more. -/
theorem State.push_of_lt (s : State) (a : Addr) (h : s.sp.val < 16) :
    s.push a = { s with stack := s.stack.set s.sp.val a, sp := ⟨s.sp.val + 1, by omega⟩ } := by
  simp [State.push, h]

/-- A push on a full stack does nothing. -/
theorem State.push_of_full (s : State) (a : Addr) (h : ¬ s.sp.val < 16) : s.push a = s := by
  simp [State.push, h]

/-- A pop from a stack with an entry: the count one less, `pc` the entry. -/
theorem State.popToPc_of_pos (s : State) (h : 0 < s.sp.val) :
    s.popToPc = { s with sp := ⟨s.sp.val - 1, by omega⟩, pc := s.stack[s.sp.val - 1]'(by omega) } := by
  simp [State.popToPc, h]

/-- A pop from an empty stack does nothing. -/
theorem State.popToPc_of_empty (s : State) (h : ¬ 0 < s.sp.val) : s.popToPc = s := by
  simp [State.popToPc, h]

/-- Sampling changes the ports and the counter of free samples only. -/
theorem State.sample_frame (s : State) (inputs : Option (Keys × Byte)) :
    s.sample inputs = { s with
      keys := (s.sample inputs).keys, rnd := (s.sample inputs).rnd, draws := (s.sample inputs).draws } := by
  cases inputs <;> rfl

end Sys2Proof.Machine
end

