-- ==== Sys2Proof/Laws/Display.lean ====
section
/-! SUPPORT. The display buffer: a cell or pixel read after a write, the canonical form kept, what moving
the cells of the region does, and what one sprite bit does. -/

namespace Sys2Proof.Machine

theorem widthOf_pos (ext : Bool) : 0 < widthOf ext := by cases ext <;> decide

theorem heightOf_pos (ext : Bool) : 0 < heightOf ext := by cases ext <;> decide

/-- The region of either geometry lies in the buffer (R210). -/
theorem region_le (ext : Bool) : widthOf ext * heightOf ext ≤ 8192 := by cases ext <;> decide

/-- The cell index of a pixel inside the geometry lies in the region. -/
theorem index_lt (ext : Bool) (c r : Nat) (hc : c < widthOf ext) (hr : r < heightOf ext) :
    r * widthOf ext + c < widthOf ext * heightOf ext := by
  calc r * widthOf ext + c < r * widthOf ext + widthOf ext := by omega
    _ = (r + 1) * widthOf ext := by ring
    _ ≤ heightOf ext * widthOf ext := Nat.mul_le_mul_right _ hr
    _ = widthOf ext * heightOf ext := Nat.mul_comm _ _

/-- The column and row of a cell index. -/
theorem index_mod (ext : Bool) (c r : Nat) (hc : c < widthOf ext) : (r * widthOf ext + c) % widthOf ext = c := by
  rw [Nat.add_comm, Nat.add_mul_mod_self_right, Nat.mod_eq_of_lt hc]

theorem index_div (ext : Bool) (c r : Nat) (hc : c < widthOf ext) : (r * widthOf ext + c) / widthOf ext = r := by
  rw [Nat.add_comm, Nat.add_mul_div_right _ _ (widthOf_pos ext), Nat.div_eq_of_lt hc, Nat.zero_add]

/-! ## Cells -/

theorem Display.cell_eq_true (d : Display) (j : Nat) : Display.cell d j = true ↔ j ∈ d := by
  simp [Display.cell]

theorem Display.mem_insert (d : Display) (j k : Nat) : k ∈ Display.insert d j ↔ k = j ∨ k ∈ d := by
  induction d with
  | nil => simp [Display.insert]
  | cons head rest ih => unfold Display.insert; split <;> simp [ih, or_left_comm]

/-- A cell after a cell is written, in any buffer. -/
theorem Display.cell_put (d : Display) (j k : Nat) (b : Bool) :
    Display.cell (Display.put d j b) k = if k = j then b else Display.cell d k := by
  rw [Bool.eq_iff_iff, Display.cell_eq_true]
  cases b
  · by_cases h : k = j <;> simp [Display.put, h, Display.cell]
  · by_cases h : k = j <;> simp [Display.put, Display.mem_insert, h, Display.cell]

theorem Display.rising_insert (d : Display) (j : Nat) (hd : d.Pairwise fun j k => j < k) (h : j ∉ d) :
    (Display.insert d j).Pairwise fun j k => j < k := by
  induction d with
  | nil => simp [Display.insert]
  | cons head rest ih =>
    rw [List.pairwise_cons] at hd
    simp only [List.mem_cons, not_or] at h
    unfold Display.insert
    split
    · rename_i hlt
      refine List.pairwise_cons.2 ⟨fun k hk => ?_, List.pairwise_cons.2 hd⟩
      rcases List.mem_cons.1 hk with rfl | hk
      · exact hlt
      · exact lt_trans hlt (hd.1 k hk)
    · refine List.pairwise_cons.2 ⟨fun k hk => ?_, ih hd.2 h.2⟩
      rcases (Display.mem_insert rest j k).1 hk with rfl | hk
      · omega
      · exact hd.1 k hk

/-- A cell write inside the buffer keeps the canonical form. -/
theorem Display.wf_put (d : Display) (j : Nat) (b : Bool) (hd : Display.wf d) (hj : j < 8192) :
    Display.wf (Display.put d j b) := by
  obtain ⟨hrise, hlt⟩ := hd
  have hfilter := hrise.filter fun k => decide (k ≠ j)
  cases b
  · exact ⟨hfilter, fun k hk => hlt k (List.mem_of_mem_filter hk)⟩
  · refine ⟨Display.rising_insert _ _ hfilter (by simp), fun k hk => ?_⟩
    rcases (Display.mem_insert _ _ _).1 hk with rfl | hk
    · exact hj
    · exact hlt k (List.mem_of_mem_filter hk)

/-! ## Pixels -/

/-- A pixel inside the geometry is its cell (R212). -/
theorem Display.getPixel_inside (ext : Bool) (d : Display) (c r : Nat) (hc : c < widthOf ext)
    (hr : r < heightOf ext) : Display.getPixel ext d c r = Display.cell d (r * widthOf ext + c) := by
  simp [Display.getPixel, hc, hr]

/-- A pixel write inside the geometry writes its cell (R212). -/
theorem Display.putPixel_inside (ext : Bool) (d : Display) (c r : Nat) (b : Bool) (hc : c < widthOf ext)
    (hr : r < heightOf ext) :
    Display.putPixel ext d c r b = Display.put d (r * widthOf ext + c) b := by
  simp [Display.putPixel, hc, hr]

/-- A pixel write keeps the canonical form. -/
theorem Display.wf_putPixel (ext : Bool) (d : Display) (c r : Nat) (b : Bool) (hd : Display.wf d) :
    Display.wf (Display.putPixel ext d c r b) := by
  unfold Display.putPixel
  split
  · rename_i h
    exact Display.wf_put d _ b hd (lt_of_lt_of_le (index_lt ext c r h.1 h.2) (region_le ext))
  · exact hd

/-! ## Moving the cells of the region -/

/-- A cell is 1 after a move iff a cell that was 1 came there, or it lies outside the region and stayed. -/
theorem Display.mem_moveCells (ext : Bool) (move : Nat → Nat → Option (Nat × Nat)) (d : Display) (k : Nat) :
    k ∈ Display.moveCells ext move d ↔
      (∃ j ∈ d, j < widthOf ext * heightOf ext ∧
        ∃ to', move (j % widthOf ext) (j / widthOf ext) = some to' ∧ to'.2 * widthOf ext + to'.1 = k) ∨
      (k ∈ d ∧ ¬ k < widthOf ext * heightOf ext) := by
  simp only [Display.moveCells, List.mem_filterMap]
  constructor
  · rintro ⟨j, hj, h⟩
    split at h
    · rename_i hlt
      obtain ⟨p, hp, hk⟩ := Option.map_eq_some_iff.1 h
      exact .inl ⟨j, hj, hlt, p, hp, hk⟩
    · rename_i hlt
      cases h
      exact .inr ⟨hj, hlt⟩
  · rintro (⟨j, hj, hlt, p, hp, hk⟩ | ⟨hk, hlt⟩)
    · exact ⟨j, hj, by simp [hlt, hp, hk]⟩
    · exact ⟨k, hk, by simp [hlt]⟩

/-- A move that keeps the order of the region's cells and their place in it keeps the canonical form. -/
theorem Display.wf_moveCells (ext : Bool) (move : Nat → Nat → Option (Nat × Nat)) (d : Display)
    (hd : Display.wf d)
    (hin : ∀ c r p, c < widthOf ext → r < heightOf ext → move c r = some p →
      p.1 < widthOf ext ∧ p.2 < heightOf ext)
    (hmono : ∀ c r p c' r' p', move c r = some p → move c' r' = some p' →
      r * widthOf ext + c < r' * widthOf ext + c' → p.2 * widthOf ext + p.1 < p'.2 * widthOf ext + p'.1) :
    Display.wf (Display.moveCells ext move d) := by
  have hcol : ∀ j, j % widthOf ext < widthOf ext := fun j => Nat.mod_lt _ (widthOf_pos ext)
  have hrow : ∀ j, j < widthOf ext * heightOf ext → j / widthOf ext < heightOf ext :=
    fun j h => Nat.div_lt_of_lt_mul h
  have hpos : ∀ j, j / widthOf ext * widthOf ext + j % widthOf ext = j :=
    fun j => by rw [Nat.mul_comm]; exact Nat.div_add_mod j _
  have hto : ∀ j p, j < widthOf ext * heightOf ext → move (j % widthOf ext) (j / widthOf ext) = some p →
      p.2 * widthOf ext + p.1 < widthOf ext * heightOf ext := fun j p hj hp =>
    let h := hin _ _ p (hcol j) (hrow j hj) hp
    index_lt ext p.1 p.2 h.1 h.2
  constructor
  · refine hd.1.filterMap _ fun j k hjk a ha b hb => ?_
    split at ha <;> split at hb
    · obtain ⟨p, hp, rfl⟩ := Option.map_eq_some_iff.1 ha
      obtain ⟨q, hq, rfl⟩ := Option.map_eq_some_iff.1 hb
      exact hmono _ _ p _ _ q hp hq (by rw [hpos, hpos]; exact hjk)
    · obtain ⟨p, hp, rfl⟩ := Option.map_eq_some_iff.1 ha
      cases hb
      rename_i hj hk
      exact lt_of_lt_of_le (hto j p hj hp) (Nat.le_of_not_lt hk)
    · cases ha
      rename_i hj hk
      exact absurd (lt_trans hjk hk) hj
    · cases ha; cases hb; exact hjk
  · intro k hk
    rcases (Display.mem_moveCells ext move d k).1 hk with ⟨j, -, hj, p, hp, rfl⟩ | ⟨hk, -⟩
    · exact lt_of_lt_of_le (hto j p hj hp) (region_le ext)
    · exact hd.2 k hk

/-- The three scrolls keep the canonical form. -/
theorem Display.wf_scrollDown (ext : Bool) (k : Nat) (d : Display) (hd : Display.wf d) :
    Display.wf (Display.scrollDown ext k d) := by
  refine Display.wf_moveCells ext _ d hd ?_ ?_
  · intro c r p hc hr hp
    split at hp <;> cases hp
    exact ⟨hc, by assumption⟩
  · intro c r p c' r' p' hp hp' hlt
    split at hp <;> cases hp
    split at hp' <;> cases hp'
    simp only [Nat.add_mul]; omega

theorem Display.wf_scrollRight (ext : Bool) (d : Display) (hd : Display.wf d) :
    Display.wf (Display.scrollRight ext d) := by
  refine Display.wf_moveCells ext _ d hd ?_ ?_
  · intro c r p hc hr hp
    split at hp <;> cases hp
    exact ⟨by assumption, hr⟩
  · intro c r p c' r' p' hp hp' hlt
    split at hp <;> cases hp
    split at hp' <;> cases hp'
    simp only; omega

theorem Display.wf_scrollLeft (ext : Bool) (d : Display) (hd : Display.wf d) :
    Display.wf (Display.scrollLeft ext d) := by
  refine Display.wf_moveCells ext _ d hd ?_ ?_
  · intro c r p hc hr hp
    split at hp <;> cases hp
    exact ⟨by simp only; omega, hr⟩
  · intro c r p c' r' p' hp hp' hlt
    split at hp <;> cases hp
    split at hp' <;> cases hp'
    simp only; omega

/-- The buffer at reset is in canonical form. -/
theorem reset_display_wf : Display.wf State.reset.display := by decide

/-! ## Drawing -/

/-- One sprite bit inside the geometry: its cell is inverted when the bit is set, every other cell stays, and
the collision is noted when a set bit met a 1. -/
theorem drawBit_inside (ext bit : Bool) (c r : Nat) (g : Drawing) (hc : c < widthOf ext) (hr : r < heightOf ext) :
    (∀ k, Display.cell (drawBit ext bit c r g).display k =
      if k = r * widthOf ext + c then xor (Display.cell g.display k) bit else Display.cell g.display k) ∧
    (drawBit ext bit c r g).hit = (g.hit || (bit && Display.cell g.display (r * widthOf ext + c))) := by
  cases bit
  · simp [drawBit]
  · simp only [drawBit, if_true, Display.getPixel_inside ext _ c r hc hr,
      Display.putPixel_inside ext _ c r _ hc hr, Display.cell_put]
    refine ⟨fun k => ?_, by simp⟩
    by_cases h : k = r * widthOf ext + c <;> simp [h]

/-- One sprite bit keeps the canonical form. -/
theorem drawBit_wf (ext bit : Bool) (c r : Nat) (g : Drawing) (h : Display.wf g.display) :
    Display.wf (drawBit ext bit c r g).display := by
  unfold drawBit
  split
  · exact Display.wf_putPixel ext _ c r _ h
  · exact h

/-- A whole sprite keeps the canonical form. -/
theorem drawSprite_wf (s : State) (shape : SpriteShape) (x0 y0 : Nat) (h : Display.wf s.display) :
    Display.wf (drawSprite s shape x0 y0).display := by
  have hfold : ∀ {α : Type} (step : Drawing → α → Drawing)
      (_ : ∀ g a, Display.wf g.display → Display.wf (step g a).display) (l : List α) (g : Drawing),
      Display.wf g.display → Display.wf (l.foldl step g).display := by
    intro α step hstep l
    induction l with
    | nil => intro g hg; exact hg
    | cons a rest ih => intro g hg; exact ih _ (hstep g a hg)
  exact hfold _ (fun g r hg => hfold _ (fun g c hg => drawBit_wf _ _ _ _ g hg) _ g hg) _ _ h

end Sys2Proof.Machine
end

