-- ==== Sys2Proof/Laws/Encoding.lean ====
section
/-! SUPPORT. Words and fields as numbers (30_encoding.md R71, R72): an assembled word, the fields of a word,
the fields of an assembled word, a word and its two bytes. -/

namespace Sys2Proof

/-- Concatenation as a number. -/
theorem toNat_append {m n : Nat} (a : BitVec m) (b : BitVec n) :
    (a ++ b).toNat = a.toNat * 2 ^ n + b.toNat := by
  rw [BitVec.toNat_append, ← Nat.shiftLeft_add_eq_or_of_lt b.isLt, Nat.shiftLeft_eq]

/-! ## Fields -/

theorem fieldP_toNat (w : Word) : (fieldP w).toNat = w.toNat / 4096 := by
  have := w.isLt
  simp only [fieldP, BitVec.extractLsb'_toNat, Nat.shiftRight_eq_div_pow]; omega

theorem fieldX_val (w : Word) : (fieldX w).val = w.toNat / 256 % 16 := by
  simp only [fieldX, BitVec.val_toFin, BitVec.extractLsb'_toNat, Nat.shiftRight_eq_div_pow]

theorem fieldY_val (w : Word) : (fieldY w).val = w.toNat / 16 % 16 := by
  simp only [fieldY, BitVec.val_toFin, BitVec.extractLsb'_toNat, Nat.shiftRight_eq_div_pow]

theorem fieldN_toNat (w : Word) : (fieldN w).toNat = w.toNat % 16 := by
  simp only [fieldN, BitVec.extractLsb'_toNat, Nat.shiftRight_eq_div_pow]; omega

theorem fieldKK_toNat (w : Word) : (fieldKK w).toNat = w.toNat % 256 := by
  simp only [fieldKK, BitVec.extractLsb'_toNat, Nat.shiftRight_eq_div_pow]; omega

theorem fieldNNN_toNat (w : Word) : (fieldNNN w).toNat = w.toNat % 4096 := by
  simp only [fieldNNN, BitVec.extractLsb'_toNat, Nat.shiftRight_eq_div_pow]; omega

/-! ## Assembled words -/

theorem assembleNNN_toNat (p : BitVec 4) (nnn : Addr) :
    (assembleNNN p nnn).toNat = p.toNat * 4096 + nnn.toNat := toNat_append p nnn

theorem assembleXKK_toNat (p : BitVec 4) (x : Reg) (kk : Byte) :
    (assembleXKK p x kk).toNat = p.toNat * 4096 + x.val * 256 + kk.toNat := by
  have h : (assembleXKK p x kk).toNat = (p ++ (BitVec.ofFin x : BitVec 4)).toNat * 256 + kk.toNat :=
    toNat_append _ kk
  have h' : (p ++ (BitVec.ofFin x : BitVec 4)).toNat = p.toNat * 16 + x.val := toNat_append p _
  rw [h, h']; ring

theorem assembleXYN_toNat (p : BitVec 4) (x y : Reg) (n : Nibble) :
    (assembleXYN p x y n).toNat = p.toNat * 4096 + x.val * 256 + y.val * 16 + n.toNat := by
  have h : (assembleXYN p x y n).toNat =
      (p ++ (BitVec.ofFin x : BitVec 4) ++ (BitVec.ofFin y : BitVec 4)).toNat * 16 + n.toNat := toNat_append _ n
  have h' : (p ++ (BitVec.ofFin x : BitVec 4) ++ (BitVec.ofFin y : BitVec 4)).toNat =
      (p ++ (BitVec.ofFin x : BitVec 4)).toNat * 16 + y.val := toNat_append _ _
  have h'' : (p ++ (BitVec.ofFin x : BitVec 4)).toNat = p.toNat * 16 + x.val := toNat_append p _
  rw [h, h', h'']; ring

/-- The fields of a word of `p`, `nnn`. -/
theorem fields_assembleNNN (p : BitVec 4) (nnn : Addr) :
    fieldP (assembleNNN p nnn) = p ∧ fieldNNN (assembleNNN p nnn) = nnn := by
  have hp := p.isLt; have hn := nnn.isLt
  constructor <;> apply BitVec.eq_of_toNat_eq <;>
    simp only [fieldP_toNat, fieldNNN_toNat, assembleNNN_toNat] <;> omega

/-- The fields of a word of `p`, `x`, `kk`. -/
theorem fields_assembleXKK (p : BitVec 4) (x : Reg) (kk : Byte) :
    fieldP (assembleXKK p x kk) = p ∧ fieldX (assembleXKK p x kk) = x ∧ fieldKK (assembleXKK p x kk) = kk := by
  have hp := p.isLt; have hx := x.isLt; have hk := kk.isLt
  refine ⟨BitVec.eq_of_toNat_eq ?_, Fin.ext ?_, BitVec.eq_of_toNat_eq ?_⟩ <;>
    simp only [fieldP_toNat, fieldX_val, fieldKK_toNat, assembleXKK_toNat] <;> omega

/-- The fields of a word of `p`, `x`, `y`, `n`. -/
theorem fields_assembleXYN (p : BitVec 4) (x y : Reg) (n : Nibble) :
    fieldP (assembleXYN p x y n) = p ∧ fieldX (assembleXYN p x y n) = x ∧
      fieldY (assembleXYN p x y n) = y ∧ fieldN (assembleXYN p x y n) = n := by
  have hp := p.isLt; have hx := x.isLt; have hy := y.isLt; have hn := n.isLt
  refine ⟨BitVec.eq_of_toNat_eq ?_, Fin.ext ?_, Fin.ext ?_, BitVec.eq_of_toNat_eq ?_⟩ <;>
    simp only [fieldP_toNat, fieldX_val, fieldY_val, fieldN_toNat, assembleXYN_toNat] <;> omega

/-! ## A word rebuilt from its fields -/

theorem reassembleNNN (w : Word) : assembleNNN (fieldP w) (fieldNNN w) = w := by
  apply BitVec.eq_of_toNat_eq
  simp only [assembleNNN_toNat, fieldP_toNat, fieldNNN_toNat]; omega

theorem reassembleXKK (w : Word) : assembleXKK (fieldP w) (fieldX w) (fieldKK w) = w := by
  apply BitVec.eq_of_toNat_eq
  simp only [assembleXKK_toNat, fieldP_toNat, fieldX_val, fieldKK_toNat]; omega

theorem reassembleXYN (w : Word) : assembleXYN (fieldP w) (fieldX w) (fieldY w) (fieldN w) = w := by
  apply BitVec.eq_of_toNat_eq
  simp only [assembleXYN_toNat, fieldP_toNat, fieldX_val, fieldY_val, fieldN_toNat]; omega

/-! ## Masks -/

/-- Two fields masked side by side. -/
theorem append_and_append {m n : Nat} (a c : BitVec m) (b d : BitVec n) :
    (a ++ b) &&& (c ++ d) = (a &&& c) ++ (b &&& d) := by
  ext k hk
  simp only [BitVec.getElem_and, BitVec.getElem_append]
  split <;> rfl

/-- A mask of the family only. -/
theorem mask_assembleNNN (p : BitVec 4) (nnn : Addr) : assembleNNN p nnn &&& 0xF000#16 = assembleNNN p 0 := by
  have h := append_and_append p 0xF#4 nnn 0x000#12
  rw [show p &&& 0xF#4 = p from BitVec.and_allOnes, BitVec.and_zero] at h
  exact h

/-- A mask of the family and part of `kk`. -/
theorem mask_assembleXKK (p : BitVec 4) (x : Reg) (kk m : Byte) :
    assembleXKK p x kk &&& assembleXKK 0xF#4 0 m = assembleXKK p 0 (kk &&& m) := by
  have h : (p ++ (BitVec.ofFin x : BitVec 4)) &&& (0xF#4 ++ 0x0#4) = p ++ 0x0#4 := by
    rw [append_and_append, show p &&& 0xF#4 = p from BitVec.and_allOnes, BitVec.and_zero]
  have h' := append_and_append (p ++ (BitVec.ofFin x : BitVec 4)) (0xF#4 ++ 0x0#4) kk m
  rw [h] at h'
  exact h'

/-- A mask of the family and part of `n`. -/
theorem mask_assembleXYN (p : BitVec 4) (x y : Reg) (n m : Nibble) :
    assembleXYN p x y n &&& assembleXYN 0xF#4 0 0 m = assembleXYN p 0 0 (n &&& m) := by
  have h : (p ++ (BitVec.ofFin x : BitVec 4) ++ (BitVec.ofFin y : BitVec 4)) &&& (0xF#4 ++ 0x0#4 ++ 0x0#4) =
      p ++ 0x0#4 ++ 0x0#4 := by
    rw [append_and_append, append_and_append, show p &&& 0xF#4 = p from BitVec.and_allOnes, BitVec.and_zero,
      BitVec.and_zero]
  have h' := append_and_append (p ++ (BitVec.ofFin x : BitVec 4) ++ (BitVec.ofFin y : BitVec 4))
    (0xF#4 ++ 0x0#4 ++ 0x0#4) n m
  rw [h] at h'
  exact h'

/-! ## Bytes -/

/-- A word is the concatenation of its two bytes (R53). -/
theorem wordOfBytes_bytes (w : Word) : wordOfBytes (highByte w) (lowByte w) = w := by
  apply BitVec.eq_of_toNat_eq
  have hw := w.isLt
  have h := toNat_append (highByte w) (lowByte w)
  have hh : (highByte w).toNat = w.toNat / 256 % 256 := by
    simp only [highByte, BitVec.extractLsb'_toNat, Nat.shiftRight_eq_div_pow]
  have hl : (lowByte w).toNat = w.toNat % 256 := by
    simp only [lowByte, BitVec.extractLsb'_toNat, Nat.shiftRight_eq_div_pow]; omega
  have ht : (wordOfBytes (highByte w) (lowByte w)).toNat = (highByte w ++ lowByte w).toNat := rfl
  omega

end Sys2Proof
end

