-- ==== Sys2Proof/Laws/Memory.lean ====
section
/-! SUPPORT. Memory: a read after a write, the canonical form kept by every write, the bulk loops of
`Fx55`, `Fx65`, `Fx75`, `Fx85` and `load`, and `Fx33`'s addresses. -/

namespace Sys2Proof.Machine

/-! ## One byte -/

theorem Memory.read_insert (base : Addr) (m : Memory) (a c : Nat) (b : Byte) (h : ∀ cell ∈ m, cell.1 ≠ a) :
    Memory.read base (Memory.insert m a b) c = if c = a then b else Memory.read base m c := by
  induction m with
  | nil => simp [Memory.insert, Memory.read, eq_comm]
  | cons cell rest ih =>
    have hcell := h cell (by simp)
    have ih := ih fun d hd => h d (by simp [hd])
    unfold Memory.insert
    split
    · by_cases hc : c = a <;> simp [Memory.read, hc, Ne.symm, eq_comm]
    · simp only [Memory.read, ih]
      by_cases hc : c = a
      · subst hc; simp [hcell]
      · simp [hc]

theorem Memory.read_filter (base : Addr) (m : Memory) (a c : Nat) :
    Memory.read base (m.filter fun cell => cell.1 ≠ a) c =
      if c = a then Memory.unlisted base a else Memory.read base m c := by
  induction m with
  | nil => simp [Memory.read]; intro h; rw [h]
  | cons cell rest ih =>
    by_cases h : cell.1 = a
    · rw [List.filter_cons_of_neg (by simp [h]), ih]
      by_cases hc : c = a
      · simp [hc]
      · simp [hc, Memory.read, h, Ne.symm hc]
    · rw [List.filter_cons_of_pos (by simp [h])]
      simp only [Memory.read, ih]
      by_cases hc : c = a
      · subst hc; simp [h]
      · simp [hc]

/-- A byte read after a byte written, at any address, in any memory. -/
theorem Memory.read_write (base : Addr) (m : Memory) (a c : Nat) (b : Byte) :
    Memory.read base (Memory.write base m a b) c = if c = a then b else Memory.read base m c := by
  simp only [Memory.write]
  by_cases hb : b = Memory.unlisted base a
  · rw [if_pos hb, Memory.read_filter, hb]
  · rw [if_neg hb, Memory.read_insert _ _ _ _ _ (by simp), Memory.read_filter]
    by_cases hc : c = a <;> simp [hc]

/-- A byte of the state after a byte is written. -/
theorem State.readByte_writeByte (s : State) (a c : Addr) (b : Byte) :
    (s.writeByte a b).readByte c = if c = a then b else s.readByte c := by
  simp only [State.readByte, State.writeByte_mem, State.writeByte_params, Memory.read_write, BitVec.toNat_inj]

/-! ## The canonical form -/

theorem Memory.mem_insert (m : Memory) (a : Nat) (b : Byte) (cell : Host.Cell) :
    cell ∈ Memory.insert m a b ↔ cell = (a, b) ∨ cell ∈ m := by
  induction m with
  | nil => simp [Memory.insert]
  | cons head rest ih => unfold Memory.insert; split <;> simp [ih, or_left_comm]

theorem Memory.rising_insert (m : Memory) (a : Nat) (b : Byte) (hm : m.Pairwise fun c d => c.1 < d.1)
    (h : ∀ cell ∈ m, cell.1 ≠ a) : (Memory.insert m a b).Pairwise fun c d => c.1 < d.1 := by
  induction m with
  | nil => simp [Memory.insert]
  | cons head rest ih =>
    rw [List.pairwise_cons] at hm
    have hhead := h head (by simp)
    unfold Memory.insert
    split
    · rename_i hlt
      refine List.pairwise_cons.2 ⟨?_, List.pairwise_cons.2 hm⟩
      intro d hd
      rcases List.mem_cons.1 hd with rfl | hd
      · exact hlt
      · exact lt_trans hlt (hm.1 d hd)
    · refine List.pairwise_cons.2 ⟨?_, ih hm.2 fun d hd => h d (by simp [hd])⟩
      intro d hd
      rcases (Memory.mem_insert rest a b d).1 hd with rfl | hd
      · simp only; omega
      · exact hm.1 d hd

/-- A write keeps the canonical form. -/
theorem Memory.wf_write (base : Addr) (m : Memory) (a : Nat) (b : Byte) (hm : Memory.wf base m) (ha : a < 4096) :
    Memory.wf base (Memory.write base m a b) := by
  obtain ⟨hrise, hcell⟩ := hm
  have hfilter := hrise.filter fun cell => decide (cell.1 ≠ a)
  unfold Memory.write
  split
  · exact ⟨hfilter, fun c hc => hcell c (List.mem_of_mem_filter hc)⟩
  · rename_i hb
    refine ⟨Memory.rising_insert _ _ _ hfilter (by simp), fun c hc => ?_⟩
    rcases (Memory.mem_insert _ _ _ _).1 hc with rfl | hc
    · exact ⟨ha, hb⟩
    · exact hcell c (List.mem_of_mem_filter hc)

/-- A byte written to the state keeps its memory's canonical form. -/
theorem State.wf_writeByte (s : State) (a : Addr) (b : Byte) (h : Memory.wf s.params.extFontBase s.mem) :
    Memory.wf s.params.extFontBase (s.writeByte a b).mem := Memory.wf_write s.params.extFontBase s.mem a.toNat b h a.isLt

/-- The memory at reset is in canonical form. -/
theorem reset_mem_wf : Memory.wf State.reset.params.extFontBase State.reset.mem := by decide

/-! ## Bulk loops -/

/-- What every round keeps, the loop keeps. -/
theorem loopTo_keeps {P : State → Prop} (m : Nat) (body : Nat → State → State) (s : State)
    (hbody : ∀ k t, P t → P (body k t)) (hs : P s) : P (loopTo m body s) := by
  induction m with
  | zero => exact hbody 0 s hs
  | succ k ih => exact hbody (k + 1) _ ih

/-- Small offsets from `I` reach distinct addresses. -/
theorem State.addrAt_inj (s : State) (j k : Nat) (hj : j < 4096) (hk : k < 4096) :
    s.addrAt j = s.addrAt k ↔ j = k := by
  simp only [State.addrAt, ← BitVec.toNat_inj, BitVec.toNat_ofNat]
  omega

theorem regAt_val (k : Nat) (h : k < 16) : (regAt k).val = k := by
  simp [regAt, Nat.mod_eq_of_lt h]

theorem bankAt_val (k : Nat) (h : k < 8) : (bankAt k).val = k := by
  simp [bankAt, Nat.mod_eq_of_lt h]

/-- After a bulk move only `I` may change. -/
theorem afterBulk_frame (x : Reg) (s : State) : afterBulk x s = { s with i := (afterBulk x s).i } := by
  unfold afterBulk
  split <;> rfl

/-- `I` after a bulk move, as `I_INCREMENT` says (R189). -/
theorem afterBulk_i (x : Reg) (s : State) :
    (afterBulk x s).i.toNat =
      match s.params.iIncrement with
      | .none => s.i.toNat
      | .xPlusOne => (s.i.toNat + x.val + 1) % 4096 := by
  unfold afterBulk
  split <;> simp [State.addrAt, Nat.add_assoc, *]

/-- `Fx55`'s loop changes memory only. -/
theorem storeLoop_frame (m : Nat) (s : State) :
    loopTo m (fun k t => t.writeByte (t.addrAt k) (t.getV (regAt k))) s =
      { s with mem := (loopTo m (fun k t => t.writeByte (t.addrAt k) (t.getV (regAt k))) s).mem } := by
  refine loopTo_keeps (P := fun t => t = { s with mem := t.mem }) m _ s ?_ rfl
  intro k t ht
  rw [ht]; rfl

/-- `Fx55`'s loop: the byte at offset `k ≤ m` is `V[k]`, every other byte is as before. -/
theorem storeLoop_readByte (m : Nat) (hm : m < 16) (s : State) (a : Addr) :
    (loopTo m (fun k t => t.writeByte (t.addrAt k) (t.getV (regAt k))) s).readByte a =
      if (a - s.i).toNat ≤ m then s.getV (regAt (a - s.i).toNat) else s.readByte a := by
  have hoff : ∀ k, k < 16 → (a = s.addrAt k ↔ (a - s.i).toNat = k) := by
    intro k hk
    simp only [State.addrAt, ← BitVec.toNat_inj, BitVec.toNat_ofNat, BitVec.toNat_sub]
    omega
  induction m with
  | zero =>
    simp only [loopTo, State.readByte_writeByte, hoff 0 (by omega), Nat.le_zero]
    split
    · rename_i h; rw [h]
    · rfl
  | succ k ih =>
    have hframe := storeLoop_frame k s
    simp only [loopTo, State.readByte_writeByte, ih (by omega)]
    rw [hframe]
    simp only [show ∀ (t : State) (n : Memory), ({ t with mem := n } : State).addrAt (k + 1) = t.addrAt (k + 1)
      from fun _ _ => rfl, show ∀ (t : State) (n : Memory) (x : Reg), ({ t with mem := n } : State).getV x = t.getV x
      from fun _ _ _ => rfl, hoff (k + 1) (by omega)]
    by_cases h : (a - s.i).toNat = k + 1
    · simp [h]
    · simp only [if_neg h]
      by_cases h' : (a - s.i).toNat ≤ k
      · rw [if_pos h', if_pos (by omega)]
      · rw [if_neg h', if_neg (by omega)]

/-- `Fx65`'s loop changes `V` only. -/
theorem loadLoop_frame (m : Nat) (s : State) :
    loopTo m (fun k t => t.setV (regAt k) (t.readByte (t.addrAt k))) s =
      { s with v := (loopTo m (fun k t => t.setV (regAt k) (t.readByte (t.addrAt k))) s).v } := by
  refine loopTo_keeps (P := fun t => t = { s with v := t.v }) m _ s ?_ rfl
  intro k t ht
  rw [ht]; rfl

/-- `Fx65`'s loop: `V[k]` with `k ≤ m` is the byte at offset `k`, every other register is as before. -/
theorem loadLoop_getV (m : Nat) (hm : m < 16) (s : State) (x : Reg) :
    (loopTo m (fun k t => t.setV (regAt k) (t.readByte (t.addrAt k))) s).getV x =
      if x.val ≤ m then s.readByte (s.addrAt x.val) else s.getV x := by
  have hreg : ∀ k, k < 16 → (x = regAt k ↔ x.val = k) := by
    intro k hk
    rw [Fin.ext_iff, regAt_val k hk]
  induction m with
  | zero =>
    simp only [loopTo, State.getV_setV, hreg 0 (by omega), Nat.le_zero]
    split
    · rename_i h; rw [h]
    · rfl
  | succ k ih =>
    have hframe := loadLoop_frame k s
    simp only [loopTo, State.getV_setV, ih (by omega), hreg (k + 1) (by omega)]
    by_cases h : x.val = k + 1
    · rw [if_pos h, if_pos (by omega), h, hframe]; rfl
    · rw [if_neg h]
      by_cases h' : x.val ≤ k
      · rw [if_pos h', if_pos (by omega)]
      · rw [if_neg h', if_neg (by omega)]

/-- `Fx75`'s loop changes `R` only. -/
theorem storeBankLoop_frame (m : Nat) (s : State) :
    loopTo m (fun k t => t.setR (bankAt k) (t.getV (regAt k))) s =
      { s with r := (loopTo m (fun k t => t.setR (bankAt k) (t.getV (regAt k))) s).r } := by
  refine loopTo_keeps (P := fun t => t = { s with r := t.r }) m _ s ?_ rfl
  intro k t ht
  rw [ht]; rfl

/-- `Fx75`'s loop: `R[k]` with `k ≤ m` is `V[k]`, every other persistent register is as before. -/
theorem storeBankLoop_getR (m : Nat) (hm : m < 8) (s : State) (j : Fin 8) :
    (loopTo m (fun k t => t.setR (bankAt k) (t.getV (regAt k))) s).getR j =
      if j.val ≤ m then s.getV (regAt j.val) else s.getR j := by
  have hbank : ∀ k, k < 8 → (j = bankAt k ↔ j.val = k) := by
    intro k hk
    rw [Fin.ext_iff, bankAt_val k hk]
  induction m with
  | zero =>
    simp only [loopTo, State.getR_setR, hbank 0 (by omega), Nat.le_zero]
    split
    · rename_i h; rw [h]
    · rfl
  | succ k ih =>
    have hframe := storeBankLoop_frame k s
    simp only [loopTo, State.getR_setR, ih (by omega), hbank (k + 1) (by omega)]
    by_cases h : j.val = k + 1
    · rw [if_pos h, if_pos (by omega), h, hframe]; rfl
    · rw [if_neg h]
      by_cases h' : j.val ≤ k
      · rw [if_pos h', if_pos (by omega)]
      · rw [if_neg h', if_neg (by omega)]

/-- `Fx85`'s loop changes `V` only. -/
theorem loadBankLoop_frame (m : Nat) (s : State) :
    loopTo m (fun k t => t.setV (regAt k) (t.getR (bankAt k))) s =
      { s with v := (loopTo m (fun k t => t.setV (regAt k) (t.getR (bankAt k))) s).v } := by
  refine loopTo_keeps (P := fun t => t = { s with v := t.v }) m _ s ?_ rfl
  intro k t ht
  rw [ht]; rfl

/-- `Fx85`'s loop: `V[k]` with `k ≤ m` is `R[k]`, every other register is as before. -/
theorem loadBankLoop_getV (m : Nat) (hm : m < 8) (s : State) (x : Reg) :
    (loopTo m (fun k t => t.setV (regAt k) (t.getR (bankAt k))) s).getV x =
      if x.val ≤ m then s.getR (bankAt x.val) else s.getV x := by
  have hreg : ∀ k, k < 8 → (x = regAt k ↔ x.val = k) := by
    intro k hk
    rw [Fin.ext_iff, regAt_val k (by omega)]
  induction m with
  | zero =>
    simp only [loopTo, State.getV_setV, hreg 0 (by omega), Nat.le_zero]
    split
    · rename_i h; rw [h]
    · rfl
  | succ k ih =>
    have hframe := loadBankLoop_frame k s
    simp only [loopTo, State.getV_setV, ih (by omega), hreg (k + 1) (by omega)]
    by_cases h : x.val = k + 1
    · rw [if_pos h, if_pos (by omega), h, hframe]; rfl
    · rw [if_neg h]
      by_cases h' : x.val ≤ k
      · rw [if_pos h', if_pos (by omega)]
      · rw [if_neg h', if_neg (by omega)]

/-! ## load -/

/-- `load` changes memory only. -/
theorem State.writeBytes_frame (s : State) (a : Addr) (bytes : List Byte) :
    s.writeBytes a bytes = { s with mem := (s.writeBytes a bytes).mem } := by
  induction bytes generalizing s a with
  | nil => rfl
  | cons b rest ih => unfold State.writeBytes; rw [ih]; rfl

/-- `load` keeps the memory's canonical form. -/
theorem State.wf_writeBytes (s : State) (a : Addr) (bytes : List Byte) (h : Memory.wf s.params.extFontBase s.mem) :
    Memory.wf s.params.extFontBase (s.writeBytes a bytes).mem := by
  induction bytes generalizing s a with
  | nil => exact h
  | cons b rest ih => exact ih _ _ (State.wf_writeByte s a b h)

/-- At most 4096 bytes written one after another from `a`: each is where it was put, the rest is as before. -/
theorem State.readByte_writeBytes (s : State) (a c : Addr) (bytes : List Byte) (h : bytes.length ≤ 4096) :
    (s.writeBytes a bytes).readByte c =
      if hlt : (c - a).toNat < bytes.length then bytes[(c - a).toNat] else s.readByte c := by
  induction bytes generalizing s a with
  | nil => simp [State.writeBytes]
  | cons b rest ih =>
    simp only [List.length_cons] at h
    unfold State.writeBytes
    rw [ih _ _ (by omega)]
    by_cases hc : c = a
    · subst hc
      have hfar : (c - (c + 1)).toNat = 4095 := by
        simp only [BitVec.toNat_sub, BitVec.toNat_add, show (1 : Addr).toNat = 1 from rfl]; omega
      simp only [hfar, State.readByte_writeByte]
      rw [dif_neg (by omega), dif_pos (by simp)]
      simp
    · have hne : (c - a).toNat ≠ 0 := by
        intro h0
        apply hc
        simp only [BitVec.toNat_sub] at h0
        apply BitVec.eq_of_toNat_eq
        omega
      have hstep : (c - (a + 1)).toNat + 1 = (c - a).toNat := by
        simp only [BitVec.toNat_sub, BitVec.toNat_add, show (1 : Addr).toNat = 1 from rfl] at hne ⊢
        omega
      simp only [State.readByte_writeByte, if_neg hc, ← hstep, List.length_cons,
        Nat.add_lt_add_iff_right, List.getElem_cons_succ]

end Sys2Proof.Machine
end

