-- ==== Sys2Proof/Laws/Engine.lean ====
section
/-! SUPPORT. What the shared operations around an instruction can do: skips, the key-wait service, the timer
engine, a step and a transaction. -/

namespace Sys2Proof.Machine

/-- A skip answers with `pc` 2 further or not, and nothing else changed. -/
theorem skipIf_eq (condition : Bool) (s : State) :
    skipIf condition s = .next { s with pc := if condition then s.pc + 2 else s.pc } := by
  cases condition <;> rfl

/-! ## The key-wait service (R252) -/

/-- With no key down the service changes nothing. -/
theorem keyWaitService_none (r : Reg) (s : State) (h : s.firstKey = none) : keyWaitService r s = s := by
  simp [keyWaitService, h]

/-- With a lowest key down the service writes it and the machine runs. -/
theorem keyWaitService_some (r : Reg) (s : State) (k : Nat) (h : s.firstKey = some k) :
    keyWaitService r s = (s.setV r (BitVec.ofNat 8 k)).setWait .running := by
  simp [keyWaitService, h]

/-- The service changes at most `V` and `WAIT`. -/
theorem keyWaitService_frame (r : Reg) (s : State) :
    keyWaitService r s = { s with v := (keyWaitService r s).v, wait := (keyWaitService r s).wait } := by
  unfold keyWaitService
  split <;> rfl

/-! ## The timer engine (R286) -/

/-- A timer's value after one countdown, as a number. -/
theorem countDown_toNat (b : Byte) : (countDown b).toNat = b.toNat - 1 := by
  unfold countDown
  split
  · rename_i h; subst h; rfl
  · rename_i h
    have hpos : 0 < b.toNat := Nat.pos_of_ne_zero fun e => h (BitVec.eq_of_toNat_eq e)
    rw [BitVec.toNat_sub, show (1 : Byte).toNat = 1 from rfl]
    have := b.isLt
    omega

/-- The loop stops when at most one quantum is left. -/
theorem tickLoop_stop (fuel : Nat) (s : State) (h : ¬ s.acc > s.params.quantumNum) : tickLoop fuel s = s := by
  cases fuel <;> simp [tickLoop, h]

/-- The loop takes a quantum and ticks while more than one quantum is left. -/
theorem tickLoop_go (fuel : Nat) (s : State) (h : s.acc > s.params.quantumNum) :
    tickLoop (fuel + 1) s = tickLoop fuel (tick { s with acc := s.acc - s.params.quantumNum }) := by
  simp [tickLoop, h]

/-- The loop changes `DT`, `ST`, `SPK` and the accumulator only. -/
theorem tickLoop_frame (fuel : Nat) (s : State) :
    tickLoop fuel s = { s with
      dt := (tickLoop fuel s).dt, st := (tickLoop fuel s).st, spk := (tickLoop fuel s).spk,
      acc := (tickLoop fuel s).acc } := by
  induction fuel generalizing s with
  | zero => rfl
  | succ k ih =>
    unfold tickLoop
    split
    · rw [ih]; rfl
    · rfl

/-- With a positive quantum and as many rounds as the accumulator has units, at most one quantum is left. -/
theorem tickLoop_acc (fuel : Nat) (s : State) (hpos : 0 < s.params.quantumNum) (h : s.acc ≤ fuel) :
    (tickLoop fuel s).acc ≤ s.params.quantumNum := by
  induction fuel generalizing s with
  | zero => simp only [tickLoop]; omega
  | succ k ih =>
    by_cases hq : s.acc > s.params.quantumNum
    · rw [tickLoop_go k s hq]
      refine ih (tick { s with acc := s.acc - s.params.quantumNum }) hpos ?_
      simp only [tick]
      omega
    · rw [tickLoop_stop _ s hq]; omega

/-- `update_time` changes `DT`, `ST`, `SPK` and the accumulator only. -/
theorem updateTime_frame (d : Nat) (s : State) :
    updateTime d s = { s with
      dt := (updateTime d s).dt, st := (updateTime d s).st, spk := (updateTime d s).spk,
      acc := (updateTime d s).acc } := tickLoop_frame _ _

/-- `update_time` leaves at most one quantum in the accumulator, if the quantum is positive. -/
theorem updateTime_acc (d : Nat) (s : State) (hpos : 0 < s.params.quantumNum) :
    (updateTime d s).acc ≤ s.params.quantumNum :=
  tickLoop_acc _ { s with acc := s.acc + s.params.quantumDen * d } hpos (Nat.le_refl _)

/-! ## A step (R100) -/

/-- Everything a `step` can do when it is not refused: nothing when halted, a poll when waiting, else a no-op
or one instruction, each from the state with the ports sampled. -/
theorem stepTransaction_cases (inputs : Option (Keys × Byte)) (s t : State)
    (h : stepTransaction inputs s = .next t) :
    s.phase ≠ .beforeInit ∧ s.keyPoller = true ∧
      ((s.halt = true ∧ t = s) ∨
        (s.halt = false ∧ ∃ r, s.wait = .waiting r ∧ t = keyWaitService r (sampled inputs s)) ∨
        (s.halt = false ∧ s.wait = .running ∧ runWord (sampled inputs s) = .next t)) := by
  unfold stepTransaction at h
  split at h
  · cases h
  · rename_i hphase
    split at h
    · cases h
    · rename_i hpoll
      refine ⟨hphase, by simpa using hpoll, ?_⟩
      split at h
      · rename_i hhalt
        cases h
        exact .inl ⟨hhalt, rfl⟩
      · rename_i hhalt
        have hhalt : s.halt = false := by simpa using hhalt
        have hwait : (sampled inputs s).wait = s.wait := by cases inputs <;> rfl
        change (match (sampled inputs s).wait with
          | .waiting r => (Host.Outcome.next (keyWaitService r (sampled inputs s)) : Result)
          | .running => runWord (sampled inputs s)) = .next t at h
        rw [hwait] at h
        cases hw : s.wait with
        | running => rw [hw] at h; exact .inr (.inr ⟨hhalt, rfl, h⟩)
        | waiting r =>
          rw [hw] at h
          cases h
          exact .inr (.inl ⟨hhalt, r, rfl, rfl⟩)

/-- A fetched word is run as the instruction it decodes to, or as a no-op (R104, R106). -/
theorem runWord_cases (s t : State) (h : runWord s = .next t) :
    (∃ i, decodeBytes s.fetchBytes.1 s.fetchBytes.2 = .instr i ∧ exec i s.advancePc = .next t) ∨
      (decodeBytes s.fetchBytes.1 s.fetchBytes.2 = .noOp ∧ t = s.advancePc) := by
  unfold runWord at h
  split at h
  · rename_i i hi; exact .inl ⟨i, hi, h⟩
  · rename_i hi; cases h; exact .inr ⟨hi, rfl⟩

/-! ## A transaction (R6) -/

/-- Everything a transaction can do when it is not refused. -/
theorem transact_cases (t : Transaction) (s u : State) (h : transact t s = .next u) :
    u = initMachine s ∨
      (∃ bytes, s.phase = .loadable ∧ bytes.length ≤ maxRom ∧
        u = s.writeBytes (BitVec.ofNat 12 programStart) bytes) ∨
      (∃ inputs, stepTransaction inputs s = .next u) ∨
      (∃ d, u = updateTime d s) ∨ u = { s with keyPoller := true } ∨ u = s := by
  cases t with
  | init => cases h; exact .inl rfl
  | load bytes =>
    simp only [transact, loadRom] at h
    split at h
    · cases h
    · cases h
    · rename_i hphase
      split at h
      · rename_i hlen
        cases h
        exact .inr (.inl ⟨bytes, hphase, by simpa [romWellFormed] using hlen, rfl⟩)
      · cases h
  | step inputs => exact .inr (.inr (.inl ⟨inputs, h⟩))
  | updateTime d =>
    simp only [transact, afterInit] at h
    split at h
    · cases h
    · cases h; exact .inr (.inr (.inr (.inl ⟨d, rfl⟩)))
  | setKeyPoller => cases h; exact .inr (.inr (.inr (.inr (.inl rfl))))
  | setSpeaker => cases h; exact .inr (.inr (.inr (.inr (.inr rfl))))
  | read port =>
    simp only [transact, afterInit] at h
    split at h
    · cases h
    · cases h; exact .inr (.inr (.inr (.inr (.inr rfl))))

/-- A machine step is a transaction on the state with the agenda's first entry taken. -/
theorem step_cases (s u : State) (h : step s = .next u) :
    ∃ t s0, s0 = { s with agenda := s0.agenda } ∧ transact t s0 = .next u := by
  unfold step nextTransaction at h
  split at h
  · exact ⟨_, s, rfl, h⟩
  · exact ⟨_, _, rfl, h⟩

end Sys2Proof.Machine
end

