-- ==== Sys2Proof/Laws/PerInstr.lean ====
section
/-! SUPPORT. The family EncodesInRow, one lemma per constructor of Instr: the word an instruction is encoded
by is a word of that instruction's row of 30_encoding.md R74 (`w AND mask = match`). -/

namespace Sys2Proof.Laws.EncodesInRow

/-- The encoded word matches the instruction's own row. -/
def Statement (i : Instr) : Prop := rowMatches (rowOf i) (encode i) = true

theorem cls : Statement .cls := rfl

theorem ret : Statement .ret := rfl

theorem scd (n : Nibble) : Statement (.scd n) := by
  have h := append_and_append 0x00C#12 0xFFF#12 n 0x0#4
  rw [BitVec.and_zero] at h
  exact beq_iff_eq.2 h

theorem scr : Statement .scr := rfl

theorem scl : Statement .scl := rfl

theorem exit : Statement .exit := rfl

theorem low : Statement .low := rfl

theorem high : Statement .high := rfl

theorem jp (nnn : Addr) : Statement (.jp nnn) := beq_iff_eq.2 (mask_assembleNNN 0x1#4 nnn)

theorem call (nnn : Addr) : Statement (.call nnn) := beq_iff_eq.2 (mask_assembleNNN 0x2#4 nnn)

theorem seImm (x : Reg) (kk : Byte) : Statement (.seImm x kk) :=
  beq_iff_eq.2 ((mask_assembleXKK 0x3#4 x kk 0x00#8).trans (by rw [BitVec.and_zero]; rfl))

theorem sneImm (x : Reg) (kk : Byte) : Statement (.sneImm x kk) :=
  beq_iff_eq.2 ((mask_assembleXKK 0x4#4 x kk 0x00#8).trans (by rw [BitVec.and_zero]; rfl))

theorem seReg (x y : Reg) : Statement (.seReg x y) :=
  beq_iff_eq.2 (mask_assembleXYN 0x5#4 x y 0x0#4 0xF#4)

theorem ldImm (x : Reg) (kk : Byte) : Statement (.ldImm x kk) :=
  beq_iff_eq.2 ((mask_assembleXKK 0x6#4 x kk 0x00#8).trans (by rw [BitVec.and_zero]; rfl))

theorem addImm (x : Reg) (kk : Byte) : Statement (.addImm x kk) :=
  beq_iff_eq.2 ((mask_assembleXKK 0x7#4 x kk 0x00#8).trans (by rw [BitVec.and_zero]; rfl))

theorem ldReg (x y : Reg) : Statement (.ldReg x y) :=
  beq_iff_eq.2 (mask_assembleXYN 0x8#4 x y 0x0#4 0xF#4)

theorem orReg (x y : Reg) : Statement (.orReg x y) :=
  beq_iff_eq.2 (mask_assembleXYN 0x8#4 x y 0x1#4 0xF#4)

theorem andReg (x y : Reg) : Statement (.andReg x y) :=
  beq_iff_eq.2 (mask_assembleXYN 0x8#4 x y 0x2#4 0xF#4)

theorem xorReg (x y : Reg) : Statement (.xorReg x y) :=
  beq_iff_eq.2 (mask_assembleXYN 0x8#4 x y 0x3#4 0xF#4)

theorem addReg (x y : Reg) : Statement (.addReg x y) :=
  beq_iff_eq.2 (mask_assembleXYN 0x8#4 x y 0x4#4 0xF#4)

theorem subReg (x y : Reg) : Statement (.subReg x y) :=
  beq_iff_eq.2 (mask_assembleXYN 0x8#4 x y 0x5#4 0xF#4)

theorem shr (x y : Reg) : Statement (.shr x y) :=
  beq_iff_eq.2 (mask_assembleXYN 0x8#4 x y 0x6#4 0xF#4)

theorem subn (x y : Reg) : Statement (.subn x y) :=
  beq_iff_eq.2 (mask_assembleXYN 0x8#4 x y 0x7#4 0xF#4)

theorem shl (x y : Reg) : Statement (.shl x y) :=
  beq_iff_eq.2 (mask_assembleXYN 0x8#4 x y 0xE#4 0xF#4)

theorem sneReg (x y : Reg) : Statement (.sneReg x y) :=
  beq_iff_eq.2 (mask_assembleXYN 0x9#4 x y 0x0#4 0xF#4)

theorem ldI (nnn : Addr) : Statement (.ldI nnn) := beq_iff_eq.2 (mask_assembleNNN 0xA#4 nnn)

theorem jpV0 (nnn : Addr) : Statement (.jpV0 nnn) := beq_iff_eq.2 (mask_assembleNNN 0xB#4 nnn)

theorem rnd (x : Reg) (kk : Byte) : Statement (.rnd x kk) :=
  beq_iff_eq.2 ((mask_assembleXKK 0xC#4 x kk 0x00#8).trans (by rw [BitVec.and_zero]; rfl))

theorem drw (x y : Reg) (n : Nibble) : Statement (.drw x y n) :=
  beq_iff_eq.2 ((mask_assembleXYN 0xD#4 x y n 0x0#4).trans (by rw [BitVec.and_zero]; rfl))

theorem skp (x : Reg) : Statement (.skp x) := beq_iff_eq.2 (mask_assembleXKK 0xE#4 x 0x9E#8 0xFF#8)

theorem sknp (x : Reg) : Statement (.sknp x) := beq_iff_eq.2 (mask_assembleXKK 0xE#4 x 0xA1#8 0xFF#8)

theorem ldFromDt (x : Reg) : Statement (.ldFromDt x) := beq_iff_eq.2 (mask_assembleXKK 0xF#4 x 0x07#8 0xFF#8)

theorem ldKey (x : Reg) : Statement (.ldKey x) := beq_iff_eq.2 (mask_assembleXKK 0xF#4 x 0x0A#8 0xFF#8)

theorem ldDt (x : Reg) : Statement (.ldDt x) := beq_iff_eq.2 (mask_assembleXKK 0xF#4 x 0x15#8 0xFF#8)

theorem ldSt (x : Reg) : Statement (.ldSt x) := beq_iff_eq.2 (mask_assembleXKK 0xF#4 x 0x18#8 0xFF#8)

theorem addI (x : Reg) : Statement (.addI x) := beq_iff_eq.2 (mask_assembleXKK 0xF#4 x 0x1E#8 0xFF#8)

theorem ldFont (x : Reg) : Statement (.ldFont x) := beq_iff_eq.2 (mask_assembleXKK 0xF#4 x 0x29#8 0xFF#8)

theorem ldHFont (x : Reg) : Statement (.ldHFont x) := beq_iff_eq.2 (mask_assembleXKK 0xF#4 x 0x30#8 0xFF#8)

theorem bcd (x : Reg) : Statement (.bcd x) := beq_iff_eq.2 (mask_assembleXKK 0xF#4 x 0x33#8 0xFF#8)

theorem storeRegs (x : Reg) : Statement (.storeRegs x) := beq_iff_eq.2 (mask_assembleXKK 0xF#4 x 0x55#8 0xFF#8)

theorem loadRegs (x : Reg) : Statement (.loadRegs x) := beq_iff_eq.2 (mask_assembleXKK 0xF#4 x 0x65#8 0xFF#8)

theorem storeBank (x : Reg) : Statement (.storeBank x) := beq_iff_eq.2 (mask_assembleXKK 0xF#4 x 0x75#8 0xFF#8)

theorem loadBank (x : Reg) : Statement (.loadBank x) := beq_iff_eq.2 (mask_assembleXKK 0xF#4 x 0x85#8 0xFF#8)

end Sys2Proof.Laws.EncodesInRow
end

