-- ==== Sys2Proof/Tests/Slice0.lean ====
section
/-! SUPPORT. The model's own tests: words written out from 30_encoding.md, one or two single steps per
instruction with the results of spec/95_test_vectors.md (the vector's id stands in each docstring), and for
every statement with hypotheses a state and operands that meet them. -/

namespace Sys2Proof.Tests

open Sys2Proof.Machine

/-! ## Helpers -/

/-- Registers set one after another. -/
def regs (values : List (Reg × Byte)) (s : State) : State :=
  values.foldl (fun s p => s.setV p.1 p.2) s

/-- Bytes placed in memory from an address on. -/
def bytes (a : Addr) (values : List Byte) (s : State) : State := s.writeBytes a values

/-- The reset state with pixels set, in the mode given. -/
def lit (ext : Bool) (pixels : List (Nat × Nat)) : State :=
  (State.reset.setExt ext).setDisplay (pixels.foldl (fun d p => Display.setPixel ext d p.1 p.2) [])

/-- What an answer shows, if it is a next state. -/
def shown {α : Type} (look : State → α) (r : Result) : Option α :=
  match r with
  | .next t => some (look t)
  | _ => none

/-- One `step` with the word given at `pc` and the key levels and random byte given. -/
def stepOn (keys : Keys) (rnd : Byte) (w : Nat) (s : State) : Result :=
  transact (.step (some (keys, rnd))) (s.withFetchWord 16 w)

/-- One `step` of a word with no key down and `rnd = 0`. -/
def stepWord (w : Nat) (s : State) : Result := stepOn 0 0 w s

/-- One instruction on its own, `pc` already advanced. -/
def run (w : Word) (s : State) : Result :=
  match decode w with
  | .instr i => exec i s
  | .noOp => .next s

/-! ## Well-formedness

The operands' types leave an instruction nothing to check, so `Instr` has no ill-formed term (WellFormed.lean);
the check that can refuse is the one on a program image. -/

/-- R323: a program image one byte too long is refused, the longest one and the empty one are not. -/
theorem test_rom_of_3585_bytes_is_ill_formed :
    romWellFormed (List.replicate 3585 0) = false ∧ romWellFormed (List.replicate 3584 0) = true ∧
      romWellFormed [] = true := by
  simp only [romWellFormed, List.length_replicate]
  decide

/-- R71, R72: every register number and every operand value is legal, the highest among them. -/
theorem test_highest_operands_are_well_formed :
    (Instr.drw 15 15 15).wellFormed = true ∧ (Instr.jp 0xFFF).wellFormed = true := by decide

/-! ## Decoding: words written out from the patterns of R74 -/

/-- Family 0, whole words. -/
theorem test_decode_family_0 :
    decode 0b0000_0000_1110_0000#16 = .instr .cls ∧ decode 0b0000_0000_1110_1110#16 = .instr .ret ∧
      decode 0b0000_0000_1100_0111#16 = .instr (.scd 7) ∧ decode 0b0000_0000_1111_1011#16 = .instr .scr ∧
      decode 0b0000_0000_1111_1100#16 = .instr .scl ∧ decode 0b0000_0000_1111_1101#16 = .instr .exit ∧
      decode 0b0000_0000_1111_1110#16 = .instr .low ∧ decode 0b0000_0000_1111_1111#16 = .instr .high := by
  decide

/-- The families with an address: 1, 2, A, B. -/
theorem test_decode_address_families :
    decode 0b0001_1010_1011_1100#16 = .instr (.jp 0xABC) ∧
      decode 0b0010_0011_0000_0001#16 = .instr (.call 0x301) ∧
      decode 0b1010_0001_0010_0011#16 = .instr (.ldI 0x123) ∧
      decode 0b1011_1111_1111_1110#16 = .instr (.jpV0 0xFFE) := by decide

/-- The families with a register and a byte: 3, 4, 6, 7, C. -/
theorem test_decode_byte_families :
    decode 0b0011_0001_0010_0010#16 = .instr (.seImm 1 0x22) ∧
      decode 0b0100_0001_0010_0011#16 = .instr (.sneImm 1 0x23) ∧
      decode 0b0110_1010_0100_0010#16 = .instr (.ldImm 10 0x42) ∧
      decode 0b0111_0000_0000_0010#16 = .instr (.addImm 0 0x02) ∧
      decode 0b1100_0011_0000_1111#16 = .instr (.rnd 3 0x0F) := by decide

/-- The families with two registers: 5, 9 and D. -/
theorem test_decode_two_register_families :
    decode 0b0101_0001_0010_0000#16 = .instr (.seReg 1 2) ∧
      decode 0b1001_0001_0010_0000#16 = .instr (.sneReg 1 2) ∧
      decode 0b1101_1111_0001_0011#16 = .instr (.drw 15 1 3) := by decide

/-- Family 8, the sub-opcode in the last four bits. -/
theorem test_decode_family_8 :
    decode 0b1000_0001_0010_0000#16 = .instr (.ldReg 1 2) ∧ decode 0b1000_0001_0010_0001#16 = .instr (.orReg 1 2) ∧
      decode 0b1000_0001_0010_0010#16 = .instr (.andReg 1 2) ∧
      decode 0b1000_0001_0010_0011#16 = .instr (.xorReg 1 2) ∧
      decode 0b1000_0001_0010_0100#16 = .instr (.addReg 1 2) ∧
      decode 0b1000_0001_0010_0101#16 = .instr (.subReg 1 2) ∧
      decode 0b1000_0001_0010_0110#16 = .instr (.shr 1 2) ∧ decode 0b1000_0001_0010_0111#16 = .instr (.subn 1 2) ∧
      decode 0b1000_0001_0010_1110#16 = .instr (.shl 1 2) := by decide

/-- Families E and F, the sub-opcode in the last eight bits. -/
theorem test_decode_families_E_and_F :
    decode 0b1110_0010_1001_1110#16 = .instr (.skp 2) ∧ decode 0b1110_0010_1010_0001#16 = .instr (.sknp 2) ∧
      decode 0b1111_0100_0000_0111#16 = .instr (.ldFromDt 4) ∧
      decode 0b1111_0011_0000_1010#16 = .instr (.ldKey 3) ∧
      decode 0b1111_0011_0001_0101#16 = .instr (.ldDt 3) ∧ decode 0b1111_0011_0001_1000#16 = .instr (.ldSt 3) ∧
      decode 0b1111_0010_0001_1110#16 = .instr (.addI 2) ∧ decode 0b1111_0011_0010_1001#16 = .instr (.ldFont 3) ∧
      decode 0b1111_0011_0011_0000#16 = .instr (.ldHFont 3) ∧ decode 0b1111_1010_0011_0011#16 = .instr (.bcd 10) ∧
      decode 0b1111_0010_0101_0101#16 = .instr (.storeRegs 2) ∧
      decode 0b1111_0010_0110_0101#16 = .instr (.loadRegs 2) ∧
      decode 0b1111_0011_0111_0101#16 = .instr (.storeBank 3) ∧
      decode 0b1111_1111_1000_0101#16 = .instr (.loadBank 15) := by decide

/-- V-S-5: words of the no-op space. -/
theorem test_decode_no_ops :
    decode 0x0000 = .noOp ∧ decode 0x0123 = .noOp ∧ decode 0x00E1 = .noOp ∧ decode 0x00D5 = .noOp ∧
      decode 0x5121 = .noOp ∧ decode 0x8128 = .noOp ∧ decode 0x812F = .noOp ∧ decode 0x9121 = .noOp ∧
      decode 0xE100 = .noOp ∧ decode 0xE19F = .noOp ∧ decode 0xF100 = .noOp ∧ decode 0xF1FF = .noOp := by decide

/-- R53, R70: the first byte of an instruction is bits 15-8 of its word; and the host's form of a word. -/
theorem test_decode_bytes_big_endian :
    decodeBytes 0x61 0x23 = .instr (.ldImm 1 0x23) ∧ decodeTableWord 16 0x6123 = some (.ldImm 1 0x23) ∧
      decodeTableWord 16 0x5121 = none := by decide

/-! ## The step -/

/-- V-S-1: fetch at 0xFFF takes its second byte from address 0. -/
theorem test_fetch_wraps :
    shown (fun t => (t.getV 1, t.pc)) (stepWord 0x6123 (State.reset.setPc 0xFFF)) = some (0x23, 0x001) := by
  decide

/-- V-S-2: an odd `pc` fetches like an even one. -/
theorem test_fetch_odd :
    shown (fun t => (t.getV 0, t.pc)) (stepWord 0x607A (State.reset.setPc 0x201)) = some (0x7A, 0x203) := by
  decide

/-- V-S-3: a halted step changes nothing. -/
theorem test_halted : transact (.step (some (0xFFFF, 7))) State.reset.setHalt = .next State.reset.setHalt := rfl

/-- V-S-4: EXIT. -/
theorem test_exit : shown (fun t => (t.halt, t.pc)) (stepWord 0x00FD State.reset) = some (true, 0x202) := by decide

/-- P11: a no-op word only moves `pc`. -/
theorem test_no_op :
    stepWord 0x5121 State.reset =
      .next { State.reset.withFetchWord 16 0x5121 with pc := 0x202, phase := .started } := rfl

/-! ## Control transfer -/

/-- V-CF-1, V-CF-2: JP, to an odd address too. -/
theorem test_jp :
    shown (fun t => t.pc) (stepWord 0x1ABC State.reset) = some 0xABC ∧
      shown (fun t => t.pc) (stepWord 0x1201 State.reset) = some 0x201 := by decide

/-- V-CF-4: CALL at 0xFFE pushes 0x000. -/
theorem test_call_wraps :
    shown (fun t => (t.stack[0], t.sp, t.pc)) (stepWord 0x2300 (State.reset.setPc 0xFFE)) =
      some (0x000, 1, 0x300) := by decide

/-- V-CF-5: CALL on a full stack jumps and does not push. -/
theorem test_call_full :
    shown (fun t => (t.stack, t.sp, t.pc)) (stepWord 0x2300 { State.reset with sp := 16 }) =
      some (State.reset.stack, 16, 0x300) := by decide

/-- V-CF-6: RET on an empty stack. -/
theorem test_ret_empty : shown (fun t => (t.pc, t.sp)) (stepWord 0x00EE State.reset) = some (0x202, 0) := by decide

/-- V-CF-7: RET pops the last entry and leaves it. -/
theorem test_ret_pops :
    shown (fun t => (t.sp, t.pc, t.stack[1]))
      (stepWord 0x00EE
        { State.reset with pc := 0x20E, sp := 2, stack := (State.reset.stack.set 0 0x123).set 1 0x456 }) =
      some (1, 0x456, 0x456) := by decide

/-- V-CF-8 and P6: SE on a byte, wrapping. -/
theorem test_se_imm :
    shown (fun t => t.pc) (stepWord 0x3110 (regs [(1, 0x10)] (State.reset.setPc 0xFFE))) = some 0x002 ∧
      shown (fun t => t.pc) (stepWord 0x3108 (regs [(1, 7)] State.reset)) = some 0x202 := by decide

/-- P6: SNE on a byte. -/
theorem test_sne_imm :
    shown (fun t => t.pc) (stepWord 0x4108 (regs [(1, 7)] State.reset)) = some 0x204 ∧
      shown (fun t => t.pc) (stepWord 0x4107 (regs [(1, 7)] State.reset)) = some 0x202 := by decide

/-- P6, V-CF-9: SE on registers. -/
theorem test_se_reg :
    shown (fun t => t.pc) (stepWord 0x5120 (regs [(1, 7), (2, 7)] State.reset)) = some 0x204 ∧
      shown (fun t => t.pc) (stepWord 0x5120 (regs [(1, 0x10), (2, 0x11)] State.reset)) = some 0x202 := by decide

/-- P6, V-CF-9: SNE on registers. -/
theorem test_sne_reg :
    shown (fun t => t.pc) (stepWord 0x9120 (regs [(1, 7), (2, 7)] State.reset)) = some 0x202 ∧
      shown (fun t => t.pc) (stepWord 0x9120 (regs [(1, 0x10), (2, 0x11)] State.reset)) = some 0x204 := by decide

/-- V-CF-12: the computed jump wraps. -/
theorem test_jp_v0_wraps :
    shown (fun t => t.pc) (stepWord 0xBFFF (regs [(0, 0xFF)] State.reset)) = some 0x0FE := by decide

/-- V-CF-13: the computed jump does not push. -/
theorem test_jp_v0_no_push : shown (fun t => (t.pc, t.sp)) (stepWord 0xB202 State.reset) = some (0x202, 0) := by
  decide

/-! ## Arithmetic -/

/-- V-A-1. -/
theorem test_ld_imm : shown (fun t => t.getV 10) (run 0x6AFF State.reset) = some 0xFF := by decide

/-- V-A-2: no carry flag. -/
theorem test_add_imm_wraps :
    shown (fun t => (t.getV 1, t.getV 15)) (run 0x7102 (regs [(1, 0xFF), (15, 0x55)] State.reset)) =
      some (0x01, 0x55) := by decide

/-- V-A-3. -/
theorem test_ld_reg :
    shown (fun t => (t.getV 1, t.getV 2)) (run 0x8120 (regs [(2, 0x9C)] State.reset)) = some (0x9C, 0x9C) := by
  decide

/-- V-A-4. -/
theorem test_or :
    shown (fun t => (t.getV 1, t.getV 15)) (run 0x8121 (regs [(1, 0xF0), (2, 0x0F), (15, 0x77)] State.reset)) =
      some (0xFF, 0x77) := by decide

/-- V-A-5. -/
theorem test_and :
    shown (fun t => (t.getV 1, t.getV 15)) (run 0x8122 (regs [(1, 0xF0), (2, 0x3C), (15, 0x77)] State.reset)) =
      some (0x30, 0x77) := by decide

/-- V-A-6, V-A-7: XOR, of a register with itself too. -/
theorem test_xor :
    shown (fun t => t.getV 1) (run 0x8123 (regs [(1, 0xFF), (2, 0x0F)] State.reset)) = some 0xF0 ∧
      shown (fun t => t.getV 1) (run 0x8113 (regs [(1, 0x5A)] State.reset)) = some 0x00 := by decide

/-- P4, V-A-9: the carry, and the largest sum without one. -/
theorem test_add_carry :
    shown (fun t => (t.getV 1, t.getV 15)) (run 0x8124 (regs [(1, 0xF0), (2, 0xF0)] State.reset)) =
        some (0xE0, 1) ∧
      shown (fun t => (t.getV 1, t.getV 15)) (run 0x8124 (regs [(1, 0x80), (2, 0x7F)] State.reset)) =
        some (0xFF, 0) := by decide

/-- V-A-11: with `VF` the destination the flag wins. -/
theorem test_add_into_flag :
    shown (fun t => t.getV 15) (run 0x8F04 (regs [(15, 0x10), (0, 0xF0)] State.reset)) = some 1 := by decide

/-- V-A-13, V-A-14: equal operands give no flag; a borrow wraps. -/
theorem test_sub :
    shown (fun t => (t.getV 1, t.getV 15)) (run 0x8125 (regs [(1, 7), (2, 7)] State.reset)) = some (0, 0) ∧
      shown (fun t => (t.getV 1, t.getV 15)) (run 0x8125 (regs [(1, 3), (2, 5)] State.reset)) = some (0xFE, 0) := by
  decide

/-- V-A-12, V-A-15: no borrow, and with `VF` the destination. -/
theorem test_sub_no_borrow :
    shown (fun t => (t.getV 1, t.getV 15)) (run 0x8125 (regs [(1, 5), (2, 3)] State.reset)) = some (2, 1) ∧
      shown (fun t => t.getV 15) (run 0x8F15 (regs [(15, 5), (1, 3)] State.reset)) = some 1 := by decide

/-- P5, V-A-17: the bit shifted out, `V2` not read. -/
theorem test_shr :
    shown (fun t => (t.getV 1, t.getV 15)) (run 0x8106 (regs [(1, 0x45)] State.reset)) = some (0x22, 1) ∧
      shown (fun t => (t.getV 1, t.getV 15)) (run 0x8126 (regs [(1, 0x80), (2, 0x01)] State.reset)) =
        some (0x40, 0) := by decide

/-- V-A-18: with `VF` the destination the flag wins over the shifted value 1. -/
theorem test_shr_of_flag : shown (fun t => t.getV 15) (run 0x8F06 (regs [(15, 0x02)] State.reset)) = some 0 := by
  decide

/-- V-A-19, V-A-20, V-A-21. -/
theorem test_subn :
    shown (fun t => (t.getV 1, t.getV 15)) (run 0x8127 (regs [(1, 3), (2, 5)] State.reset)) = some (2, 1) ∧
      shown (fun t => (t.getV 1, t.getV 15)) (run 0x8127 (regs [(1, 5), (2, 3)] State.reset)) = some (0xFE, 0) ∧
      shown (fun t => (t.getV 1, t.getV 15)) (run 0x8127 (regs [(1, 0x44), (2, 0x44)] State.reset)) =
        some (0, 0) := by decide

/-- V-A-22, V-A-23. -/
theorem test_shl :
    shown (fun t => (t.getV 1, t.getV 15)) (run 0x810E (regs [(1, 0x81)] State.reset)) = some (0x02, 1) ∧
      shown (fun t => (t.getV 1, t.getV 15)) (run 0x810E (regs [(1, 0x40)] State.reset)) = some (0x80, 0) := by
  decide

/-- V-A-24. -/
theorem test_shl_of_flag : shown (fun t => t.getV 15) (run 0x8F0E (regs [(15, 0x40)] State.reset)) = some 0 := by
  decide

/-- V-A-25: the sampled random byte masked. -/
theorem test_rnd : shown (fun t => t.getV 3) (stepOn 0 0xB7 0xC30F State.reset) = some 0x07 := by decide

/-! ## Address register, loads, stores, bank -/

/-- V-M-1. -/
theorem test_ld_i : shown (fun t => t.i) (run 0xA123 State.reset) = some 0x123 := by decide

/-- V-M-2: the sum wraps, no flag. -/
theorem test_add_i_wraps :
    shown (fun t => (t.i, t.getV 15)) (run 0xF01E (regs [(0, 2), (15, 0x33)] (State.reset.setI 0xFFF))) =
      some (0x001, 0x33) := by decide

/-- V-M-3, V-M-4: only the low nibble counts. -/
theorem test_ld_font :
    shown (fun t => t.i) (run 0xF329 (regs [(3, 0x0A)] State.reset)) = some 0x082 ∧
      shown (fun t => t.i) (run 0xF329 (regs [(3, 0x1F)] State.reset)) = some 0x09B := by decide

/-- V-M-5, V-M-6. -/
theorem test_ld_hfont :
    shown (fun t => t.i) (run 0xF330 (regs [(3, 0x02)] State.reset)) = some 0x0B4 ∧
      shown (fun t => t.i) (run 0xF330 (regs [(3, 0xFF)] State.reset)) = some 0x136 := by decide

/-- V-M-9: three digits across the top of memory. -/
theorem test_bcd_wraps :
    shown (fun t => (t.readByte 0xFFF, t.readByte 0, t.readByte 1))
      (run 0xF033 (regs [(0, 0xFF)] (State.reset.setI 0xFFF))) = some (2, 5, 5) := by decide

/-- V-M-10: `V0`..`V2` stored, the next byte and `I` as before. -/
theorem test_store_regs :
    shown (fun t => ([0x300, 0x301, 0x302, 0x303].map t.readByte, t.i))
      (run 0xF255 (regs [(0, 1), (1, 2), (2, 3), (3, 4)] (State.reset.setI 0x300))) =
      some ([1, 2, 3, 0], 0x300) := by decide

/-- V-M-12: a store across the top of memory. -/
theorem test_store_regs_wraps :
    shown (fun t => [0xFFE, 0xFFF, 0x000, 0x001].map t.readByte)
      (run 0xF355 (regs [(0, 1), (1, 2), (2, 3), (3, 4)] (State.reset.setI 0xFFE))) =
      some [1, 2, 3, 4] := by decide

/-- V-M-13: all sixteen registers, the flag among them. -/
theorem test_load_regs_all :
    shown (fun t => (t.v.toList, t.i))
      (run 0xFF65 (bytes 0x300 [0, 1, 2, 3, 4, 5, 6, 7, 8, 9, 10, 11, 12, 13, 14, 15] (State.reset.setI 0x300))) =
      some ([0, 1, 2, 3, 4, 5, 6, 7, 8, 9, 10, 11, 12, 13, 14, 15], 0x300) := by decide

/-- R186: `Fx65` with `x = 2` leaves the registers above `V2` (the rule's own example). -/
theorem test_load_regs_some :
    shown (fun t => [0, 1, 2, 3].map t.getV)
      (run 0xF265 (regs [(3, 9)] (bytes 0x300 [1, 2, 3, 4] (State.reset.setI 0x300)))) =
      some [1, 2, 3, 9] := by decide

/-- V-M-14, V-M-15: the bank, and its clamp. -/
theorem test_store_bank :
    shown (fun t => t.r.toList) (run 0xF375 (regs [(0, 10), (1, 11), (2, 12), (3, 13), (4, 14)] State.reset)) =
        some [10, 11, 12, 13, 0, 0, 0, 0] ∧
      shown (fun t => t.r.toList) (run 0xFF75 (regs [(0, 0x10), (7, 0x17), (8, 0x18)] State.reset)) =
        some [0x10, 0, 0, 0, 0, 0, 0, 0x17] := by decide

/-- V-M-16: the bank read back, `V8` and above as before. -/
theorem test_load_bank :
    shown (fun t => (t.getV 0, t.getV 7, t.getV 8, t.getV 15))
      (run 0xFF85 ((State.reset.setR 0 0x80).setR 7 0x87)) = some (0x80, 0x87, 0, 0) := by decide

/-! ## Display -/

/-- V-D-12: CLS in normal mode clears a cell that only extended mode shows. -/
theorem test_cls : shown (fun t => t.display) (run 0x00E0 (State.reset.setDisplay [5000])) = some [] := by decide

/-- V-D-4, V-D-5: two rows down in either mode. -/
theorem test_scd :
    shown (fun t => t.display) (run 0x00C2 (lit false [(4, 0)])) = some (lit false [(4, 2)]).display ∧
      shown (fun t => t.display) (run 0x00C2 (lit true [(4, 0)])) = some (lit true [(4, 2)]).display := by decide

/-- V-D-6 (two cells of row 31) and R215: the last row is lost, a hidden cell stays. -/
theorem test_scd_discards :
    shown (fun t => t.display) (run 0x00C1 (State.reset.setDisplay [31 * 64, 31 * 64 + 63, 2048])) =
      some [2048] := by decide

/-- V-D-7 (two cells of the column) and R216: four columns right, the last four lost. -/
theorem test_scr :
    shown (fun t => t.display) (run 0x00FB (lit false [(0, 0), (0, 31), (60, 3)])) =
      some (lit false [(4, 0), (4, 31)]).display := by decide

/-- V-D-8, V-D-9 (two cells of the column): four columns left, the first four lost. -/
theorem test_scl :
    shown (fun t => t.display) (run 0x00FC (lit true [(127, 0), (127, 63), (3, 1)])) =
        some (lit true [(123, 0), (123, 63)]).display ∧
      shown (fun t => t.display) (run 0x00FC (lit false [(2, 0), (2, 31)])) = some [] := by decide

/-- V-D-11: LOW shows the same cell at another place. -/
theorem test_low :
    shown (fun t => (t.ext, t.pixel 4 2, t.pixel 4 1)) (run 0x00FE (lit true [(4, 1)])) =
      some (false, true, false) := by decide

/-- R225: HIGH sets the mode, and in extended mode changes nothing. -/
theorem test_high :
    shown (fun t => (t.ext, t.display)) (run 0x00FF (lit false [(4, 2)])) = some (true, [132]) ∧
      shown id (run 0x00FF (lit true [(4, 1)])) = some (lit true [(4, 1)]) := by decide

/-- The reset state with one sprite byte at 0x300. -/
def spriteState (b : Byte) : State := bytes 0x300 [b] (State.reset.setI 0x300)

/-- V-D-1, V-D-2: a draw, and the same draw on the drawn pixel. -/
theorem test_drw_collides :
    shown (fun t => (t.display, t.getV 15)) (run 0xD011 (spriteState 0x80)) = some ([0], 0) ∧
      shown (fun t => (t.display, t.getV 15)) (run 0xD011 ((spriteState 0x80).setDisplay [0])) =
        some ([], 1) := by decide

/-- V-D-3, V-D-16: the start column wraps; with `x = 15` the old flag is the column. -/
theorem test_drw_coordinates :
    shown (fun t => t.display) (run 0xD011 (regs [(0, 200)] (spriteState 0xFF))) =
        some [8, 9, 10, 11, 12, 13, 14, 15] ∧
      shown (fun t => (t.display, t.getV 15)) (run 0xDF11 (regs [(15, 5)] (spriteState 0x80))) =
        some ([5], 0) := by decide

/-- V-D-13, V-D-15: `n = 0` in normal mode draws nothing; `n = 1` in extended mode draws eight columns. -/
theorem test_drw_forms :
    shown (fun t => (t.display, t.getV 15)) (run 0xD010 (regs [(15, 7)] (spriteState 0xFF))) = some ([], 0) ∧
      shown (fun t => t.display) (run 0xD011 ((spriteState 0x80).setExt true)) = some [0] := by decide

/-- R219: in extended mode with `n = 0`, the second byte of a row holds columns 8 to 15 and the next row
starts two bytes on. -/
theorem test_drw_16 :
    shown (fun t => t.display)
      (run 0xD010 (bytes 0x300 [0x80, 0x01, 0x40] ((State.reset.setI 0x300).setExt true))) =
      some [0, 15, 129] := by decide +kernel

/-! ## Keys and timers -/

/-- V-K-2: the low nibble of `V2` names the key. -/
theorem test_skp : shown (fun t => t.pc) (stepOn 0x20 0 0xE29E (regs [(2, 0x15)] State.reset)) = some 0x204 := by
  decide

/-- V-K-3, V-K-4. -/
theorem test_sknp :
    shown (fun t => t.pc) (stepOn 0 0 0xE2A1 (regs [(2, 5)] State.reset)) = some 0x204 ∧
      shown (fun t => t.pc) (stepOn 0x20 0 0xE2A1 (regs [(2, 5)] State.reset)) = some 0x202 := by decide

/-- V-K-5: the step that enters the wait polls nothing. -/
theorem test_ld_key :
    shown (fun t => (t.wait, t.getV 3, t.pc)) (stepOn 0x04 0 0xF30A State.reset) =
      some (.waiting 3, 0, 0x202) := by decide

/-- V-K-6: the lowest key wins, `pc` stays. -/
theorem test_key_wait :
    shown (fun t => (t.getV 3, t.wait, t.pc))
      (transact (.step (some (0x210, 0))) (State.reset.setWait (.waiting 3))) =
      some (4, .running, 0x200) := by decide

/-- V-T-1. -/
theorem test_ld_from_dt : shown (fun t => t.getV 4) (run 0xF407 (State.reset.setDt 0x3C)) = some 0x3C := by decide

/-- V-T-2. -/
theorem test_ld_dt : shown (fun t => t.dt) (run 0xF315 (regs [(3, 7)] State.reset)) = some 7 := by decide

/-- V-T-3: no tick yet, so no tone. -/
theorem test_ld_st :
    shown (fun t => (t.st, t.spk)) (run 0xF318 (regs [(3, 2)] State.reset)) = some (2, false) := by decide

/-- V-T-4, V-T-5, V-T-6: the strict comparison, time kept between calls. -/
theorem test_ticks :
    (updateTime 16 (State.reset.setDt 5)).dt = 5 ∧ (updateTime 1 (updateTime 16 (State.reset.setDt 5))).dt = 4 ∧
      (updateTime 50 (State.reset.setDt 5)).dt = 3 ∧ (updateTime 50 (State.reset.setDt 5)).acc = 50 := by decide

/-- V-T-7: 200 ms are 11 ticks. -/
theorem test_eleven_ticks :
    (updateTime 200 (State.reset.setSt 12)).st = 1 ∧ (updateTime 200 (State.reset.setSt 12)).acc = 50 := by decide

/-- V-T-8, V-T-9: the speaker follows `ST` after the tick. -/
theorem test_speaker :
    (updateTime 17 (State.reset.setSt 2)).spk = true ∧ (updateTime 17 (State.reset.setSt 1)).spk = false := by decide

/-- V-T-10: the timers run while halted. -/
theorem test_ticks_while_halted :
    shown (fun t => t.dt) (transact (.updateTime 34) (State.reset.setDt 9).setHalt) = some 7 := by decide

/-! ## Reset and load -/

/-- V-R-1, V-R-5: `init` from a halted state. -/
theorem test_init :
    shown (fun t => (t.halt, t.r, t.pc)) (transact .init ((State.reset.setHalt.setR 3 4).setPc 0x456)) =
      some (false, State.reset.r, 0x200) := by decide

/-- V-R-2 in small: the first bytes of a program go to 0x200. -/
theorem test_load :
    shown (fun t => [0x1FF, 0x200, 0x201, 0x202].map t.readByte) (transact (.load [0x12, 0x34]) State.reset) =
      some [0, 0x12, 0x34, 0] := by decide

/-- V-R-3: 3585 bytes are refused. -/
theorem test_load_too_long : transact (.load (List.replicate 3585 0)) State.reset = .refused .romTooLong := by
  simp only [transact, loadRom, State.reset, romWellFormed, List.length_replicate]
  rfl

/-- V-R-4: after a step no program is loaded. -/
theorem test_load_late :
    transact (.load [1]) { State.reset with phase := .started } = .refused .loadAfterStart := rfl

/-- R212 (D25): outside the geometry a pixel reads 0 and a write does nothing; R213: a column filled and
cleared again. -/
theorem test_primitives :
    Display.getPixel false [5000] 0 40 = false ∧ Display.putPixel false [] 64 0 true = [] ∧
      Display.clearColumn false (Display.fillColumn false [] 9) 9 = [] ∧
      (Display.fillRow false [] 31).length = 64 ∧
      Display.clearRow false (Display.fillRow false [7] 31) 31 = [7] := by decide +kernel

/-! ## Parameters (R8) -/

/-- The reset state with the other value of each parameter: U3 result-wins, U4 x+1, U11 another address, U13 16 ms. -/
def otherParameters : State :=
  { State.reset with
    params :=
      { extFontBase := 0x140, quantumNum := 16, quantumDen := 1, vfDestOrder := .resultWins, iIncrement := .xPlusOne } }

/-- U3: the result 0x00 of V-A-11 stays in `VF`; U4: `I` is 3 more after `F255` and `F265`; U11: the glyph 2 of a large
font at 0x140; U13: 33 ms are two ticks of 16 ms, by the strict comparison of R286, and 1 ms is left. -/
theorem test_other_parameters :
    shown (fun t => t.getV 15) (run 0x8F04 (regs [(15, 0x10), (0, 0xF0)] otherParameters)) = some 0 ∧
      shown (fun t => t.i) (run 0xF255 (otherParameters.setI 0x300)) = some 0x303 ∧
      shown (fun t => t.i) (run 0xF265 (otherParameters.setI 0xFFE)) = some 0x001 ∧
      shown (fun t => t.i) (run 0xF330 (regs [(3, 2)] otherParameters)) = some 0x154 ∧
      (updateTime 33 (otherParameters.setDt 5)).dt = 3 ∧ (updateTime 33 (otherParameters.setDt 5)).acc = 1 := by
  decide

/-- No transaction changes the parameters, `init` among them. -/
theorem test_init_keeps_parameters :
    shown (fun t => decide (t.params = otherParameters.params)) (transact .init otherParameters) = some true := by
  decide

/-! ## Witnesses: for each statement with hypotheses, a state and operands that meet them together -/

/-- A state that waits for a key into `V3`. -/
def waitingState : State := State.reset.setWait (.waiting 3)

/-- The reset state with a transaction to come. -/
def withAgenda (t : Transaction) : State := { State.reset with agenda := [t] }

/-- Before the first `init`. -/
def uninitialised : State := { State.reset with phase := .beforeInit }

/-- No key poller installed. -/
def noPoller : State := { State.reset with keyPoller := false }

/-- `SP` given, every entry different from the one below it. -/
def stackState (sp : Fin 17) : State :=
  { State.reset with
    sp := sp
    stack := #v[1, 2, 3, 4, 5, 6, 7, 8, 9, 10, 11, 12, 13, 14, 15, 16] }

theorem witness_DecodeInvertsEncode :
    (Instr.drw 15 14 13).wellFormed = true ∧ encode (.drw 15 14 13) = 0xDFED := by decide

theorem witness_EncodeInvertsDecode : decode 0x8125 = .instr (.subReg 1 2) := by decide

theorem witness_StepRunsDecodedInstruction_free :
    invokesStep (State.reset.withFetchWord 16 0x6A42) none (State.reset.withFetchWord 16 0x6A42) ∧
      fetches (State.reset.withFetchWord 16 0x6A42) ∧ (Instr.ldImm 10 0x42).wellFormed = true ∧
      decode (wordAtPc (State.reset.withFetchWord 16 0x6A42)) = .instr (.ldImm 10 0x42) :=
  ⟨.inl ⟨rfl, rfl, rfl⟩, ⟨by decide, rfl, rfl, rfl⟩, rfl, by decide⟩

theorem witness_StepRunsDecodedInstruction_given :
    invokesStep ((withAgenda (.step (some (1, 2)))).withFetchWord 16 0x6A42) (some (1, 2))
        (State.reset.withFetchWord 16 0x6A42) ∧
      fetches (State.reset.withFetchWord 16 0x6A42) :=
  ⟨.inr ⟨[], rfl, rfl⟩, by decide, rfl, rfl, rfl⟩

theorem witness_StepRunsNoOp :
    invokesStep State.reset none State.reset ∧ fetches State.reset ∧ decode (wordAtPc State.reset) = .noOp :=
  ⟨.inl ⟨rfl, rfl, rfl⟩, ⟨by decide, rfl, rfl, rfl⟩, by decide⟩

theorem witness_PlacedInstructionRuns : State.reset.agenda = [] := rfl

theorem witness_HaltedStepChangesNothing :
    invokesStep State.reset.setHalt none State.reset.setHalt ∧ State.reset.setHalt.phase ≠ .beforeInit ∧
      State.reset.setHalt.keyPoller = true ∧ State.reset.setHalt.halt = true ∧
      Transaction.updateTime 34 ≠ .init ∧
      transact (.updateTime 34) State.reset.setHalt = .next (updateTime 34 State.reset.setHalt) :=
  ⟨.inl ⟨rfl, rfl, rfl⟩, by decide, rfl, rfl, by decide, rfl⟩

/-- With the keys 0, 4 and 9, then the key 15 alone, then none down. -/
theorem witness_WaitingStepPollsKeys :
    (invokesStep { waitingState with agenda := [.step (some (0x211, 0))] } (some (0x211, 0)) waitingState ∧
      polls 3 waitingState ∧ (sampled (some (0x211, 0)) waitingState).keys.getLsbD 0 = true) ∧
    ((sampled (some (0x8000, 0)) waitingState).keys.getLsbD 15 = true ∧
      ∀ j, j < 15 → (sampled (some (0x8000, 0)) waitingState).keys.getLsbD j = false) ∧
    ∀ k, k < 16 → (sampled (some (0, 0)) waitingState).keys.getLsbD k = false :=
  ⟨⟨.inr ⟨[], rfl, rfl⟩, ⟨by decide, rfl, rfl, rfl⟩, by decide⟩, ⟨by decide, by decide⟩, by decide⟩

theorem witness_PcOutcomesOfAStep :
    (∃ t, step State.reset.setHalt = .next t) ∧ State.reset.setHalt.halt = true ∧
    (∃ t, step waitingState = .next t) ∧ waitingState.wait ≠ .running ∧
    (∃ t, step (State.reset.withFetchWord 16 0x1ABC) = .next t) ∧ (State.reset.withFetchWord 16 0x1ABC).halt = false ∧
      (State.reset.withFetchWord 16 0x1ABC).wait = .running ∧
      decode (wordAtPc (State.reset.withFetchWord 16 0x1ABC)) = .instr (.jp 0xABC) :=
  ⟨⟨_, rfl⟩, rfl, ⟨_, rfl⟩, by decide, ⟨_, rfl⟩, rfl, rfl, by decide⟩

theorem witness_NothingIsRaised :
    invokesStep State.reset none State.reset ∧ State.reset.phase ≠ .beforeInit ∧ State.reset.keyPoller = true :=
  ⟨.inl ⟨rfl, rfl, rfl⟩, by decide, rfl⟩

/-- For each clause an instruction that may not write the piece, and one answer of it. -/
theorem witness_OnlyNamedInstructionsWrite :
    exec (.ldImm 3 7) State.reset = .next (State.reset.setV 3 7) ∧ writesReg (.ldImm 3 7) 4 = false ∧
      writesMem (.ldImm 3 7) = false ∧ writesI (.ldImm 3 7) State.reset.params = false ∧ writesPc (.ldImm 3 7) = false ∧
      writesStack (.ldImm 3 7) = false ∧
      writesDisplay (.ldImm 3 7) = false ∧ writesExt (.ldImm 3 7) = false ∧ writesDt (.ldImm 3 7) = false ∧
      writesSt (.ldImm 3 7) = false ∧ writesWait (.ldImm 3 7) = false ∧ writesHalt (.ldImm 3 7) = false ∧
      writesBank (.ldImm 3 7) = false := ⟨rfl, by decide⟩

/-- A step that runs, with given levels and with free ones, and a halted one. -/
theorem witness_StepSamplesPorts :
    (∃ t, transact (.step (some (0x8001, 7))) State.reset = .next t) ∧
      (∃ t, transact (.step none) State.reset = .next t) ∧ State.reset.halt = false ∧
      transact (.step none) State.reset.setHalt = .next State.reset.setHalt ∧ State.reset.setHalt.halt = true :=
  ⟨⟨_, rfl⟩, ⟨_, rfl⟩, rfl, rfl, rfl⟩

/-- An agenda with an `update_time` first, and an empty one. -/
theorem witness_AgendaIsPerformedInOrder :
    (withAgenda (.updateTime 17)).agenda = .updateTime 17 :: [] ∧ State.reset.agenda = [] := ⟨rfl, rfl⟩

theorem witness_ExitHalts : State.reset.phase ≠ .beforeInit ∧ State.reset.keyPoller = true := by decide

/-- The two clauses at 0, 15 and 16 entries. -/
theorem witness_CallPushesAndJumps :
    (stackState 0).sp.val < 16 ∧ (stackState 15).sp.val < 16 ∧ (stackState 16).sp.val = 16 ∧
      shown (fun t => (t.pc, t.sp, t.stack[15])) (exec (.call 0x300) (stackState 15)) = some (0x300, 16, 0x200) := by
  decide

/-- The two clauses at 16, 1 and 0 entries. -/
theorem witness_RetPopsIntoPc :
    0 < (stackState 16).sp.val ∧ 0 < (stackState 1).sp.val ∧ (stackState 0).sp.val = 0 ∧
      shown (fun t => (t.pc, t.sp)) (exec .ret (stackState 16)) = some (16, 15) ∧
      shown (fun t => (t.pc, t.sp)) (exec .ret (stackState 1)) = some (1, 0) := by decide

theorem witness_ReturnAfterCall :
    (stackState 15).sp.val < 16 ∧ ∃ t u, exec (.call 0x300) (stackState 15) = .next t ∧ u = t.setPc 0x345 ∧
      u.stack = t.stack ∧ u.sp = t.sp :=
  ⟨by decide, _, _, rfl, rfl, rfl, rfl⟩

/-- `x` at its boundary for each side of the flag rule: 15 and another, and 15 under each value of the parameter. -/
theorem witness_FlagOutcome :
    (14 : Reg) ≠ 15 ∧ (State.reset.params.vfDestOrder ≠ .resultWins) ∧
      otherParameters.params.vfDestOrder = .resultWins ∧
      shown (fun t => t.getV 15) (exec (.addReg 15 0) (regs [(15, 254), (0, 9)] otherParameters)) = some 7 ∧
      shown (fun t => (t.getV 14, t.getV 15)) (exec (.addReg 14 0) (regs [(14, 255), (0, 1)] State.reset)) =
        some (0, 1) ∧
      shown (fun t => t.getV 15) (exec (.addReg 15 0) (regs [(15, 254), (0, 1)] State.reset)) = some 0 := by decide

/-- All sixteen registers, across the top of memory. -/
theorem witness_LoadAfterStoreRestoresRegisters :
    ∃ t u, exec (.storeRegs 15) ((regs [(0, 1), (15, 9)] otherParameters).setI 0xFFE) = .next t ∧
      t.SameMemory u ∧ u.i = 0xFFE := by
  obtain ⟨t, h⟩ : ∃ t, exec (.storeRegs 15) ((regs [(0, 1), (15, 9)] otherParameters).setI 0xFFE) = .next t :=
    ⟨_, rfl⟩
  exact ⟨t, (t.setV 0 5).setI 0xFFE, h, fun _ => rfl, rfl⟩

/-- The clause on the value taken for EXT_FONT_BASE. -/
theorem witness_LargeGlyphAddress : State.reset.params = parametersTaken := rfl

/-- `x` on both sides of the clamp, and the last register it leaves alone. -/
theorem witness_PersistentBankCopies :
    shown (fun t => (t.getR 7, t.getR 6)) (exec (.storeBank 7) (regs [(7, 3), (6, 2)] State.reset)) = some (3, 2) ∧
      shown (fun t => (t.getR 7, t.getR 0)) (exec (.storeBank 8) (regs [(7, 3), (8, 4)] State.reset)) = some (3, 0) ∧
      8 ≤ (15 : Reg).val := by decide

/-- The corner pixels of both geometries meet the bounds, and the first hidden cell of normal mode. -/
theorem witness_ScrollDownMovesRows :
    63 < widthOf false ∧ 31 < heightOf false ∧ 127 < widthOf true ∧ 63 < heightOf true ∧
      widthOf false * heightOf false ≤ 2048 ∧ widthOf true * heightOf true ≤ 8192 := by decide

/-- The same corners, and a column on each side of the four that are lost. -/
theorem witness_SideScrollsMoveColumns :
    63 < widthOf false ∧ 31 < heightOf false ∧ 59 + 4 < widthOf false ∧ ¬ 60 + 4 < widthOf false ∧
      shown (fun t => (t.pixel 63 31, t.pixel 59 31)) (exec .scr (lit false [(59, 31)])) = some (true, false) ∧
      shown (fun t => (t.pixel 59 31, t.pixel 63 31)) (exec .scl (lit false [(63, 31)])) = some (true, false) := by
  decide

/-- Each mode, at the last cell both can show. -/
theorem witness_ModeSwitchReinterpretsCells :
    (lit true [(127, 15)]).ext = true ∧ 127 < 128 ∧ 15 < 64 ∧ 128 * 15 + 127 < 2048 ∧
      (lit true [(127, 15)]).pixel 127 15 = true ∧ (lit false [(63, 31)]).ext = false ∧ 63 < 64 ∧ 31 < 32 ∧
      (lit false [(63, 31)]).pixel 63 31 = true := by decide

/-- A sprite bit inside its bounds, set, over a cell that is 1 and over one that is 0. -/
theorem witness_DrawXorsSpriteOntoDisplay :
    0 < spriteRows (spriteState 0x80) 1 ∧ 7 < spriteCols (spriteState 0x80) 1 ∧
      spriteAt (spriteState 0x80) 1 0 0 = true ∧
      ((spriteState 0x80).setDisplay [0]).display.cell (spriteCell (spriteState 0x80) 0 1 0 0) = true ∧
      (spriteState 0x80).display.cell (spriteCell (spriteState 0x80) 0 1 0 0) = false ∧
      15 < spriteRows (State.reset.setExt true) 0 ∧ 15 < spriteCols (State.reset.setExt true) 0 := by decide

theorem witness_DrawTwiceRestoresDisplay :
    (0 : Reg) ≠ 15 ∧ (1 : Reg) ≠ 15 ∧ (∃ t, exec (.drw 0 1 1) (spriteState 0x80) = .next t) ∧
      0 < spriteRows (spriteState 0x80) 1 ∧ 0 < spriteCols (spriteState 0x80) 1 ∧
      spriteAt (spriteState 0x80) 1 0 0 = true ∧
      (spriteState 0x80).display.cell (spriteCell (spriteState 0x80) 0 1 0 0) = false :=
  ⟨by decide, by decide, ⟨_, rfl⟩, by decide, by decide, by decide, by decide⟩

/-- With the first hidden cell and the last one set. -/
theorem witness_HiddenCellsStay :
    (lit false []).ext = false ∧ Instr.scd 15 ≠ .cls ∧
      shown (fun t => t.display) (exec (.scd 15) ((lit false []).setDisplay [2047, 2048, 8191])) =
        some [2048, 8191] := by decide

/-- One quantum exactly is no tick, one third of a millisecond more is one; an empty history, and one whose sum
is an exact multiple. -/
theorem witness_TickCountClosedForm :
    State.reset.acc = 0 ∧ State.reset.phase ≠ .beforeInit ∧ 0 < State.reset.params.quantumNum ∧
      (updateTime 0 { State.reset with acc := 50, dt := 9 }).dt = 9 ∧
      (updateTime 0 { State.reset with acc := 51, dt := 9 }).dt = 8 ∧ ([] : List Nat).sum = 0 ∧
      ([20, 30].sum ≠ 0 ∧ 3 * [20, 30].sum % 50 = 0) := by decide

theorem witness_TimeMayBeCutIntoPieces :
    0 < State.reset.params.quantumNum ∧ State.reset.acc ≤ State.reset.params.quantumNum ∧
      { State.reset with acc := 50 }.acc ≤ State.reset.params.quantumNum := by decide

/-- A step that runs an instruction other than the two that write the timers. -/
theorem witness_TimersRunInEveryStepState :
    State.reset.phase ≠ .beforeInit ∧ (∃ t, stepTransaction none (State.reset.withFetchWord 16 0x6A42) = .next t) ∧
      ∀ x, decode (wordAtPc (State.reset.withFetchWord 16 0x6A42)) ≠ .instr (.ldDt x) ∧
        decode (wordAtPc (State.reset.withFetchWord 16 0x6A42)) ≠ .instr (.ldSt x) :=
  ⟨by decide, ⟨_, rfl⟩, by decide⟩

/-- Each clause: the longest admitted image, one byte more, and a `load` after a step. -/
theorem witness_LoadCopiesProgram :
    State.reset.phase = .loadable ∧ (List.replicate 3584 (0 : Byte)).length ≤ 3584 ∧
      3584 < (List.replicate 3585 (0 : Byte)).length ∧ { State.reset with phase := .started }.phase = .started := by
  rw [List.length_replicate, List.length_replicate]
  decide

theorem witness_RefusalsBeforeInitAndPoller :
    uninitialised.phase = .beforeInit ∧ noPoller.phase ≠ .beforeInit ∧ noPoller.keyPoller = false := by decide

theorem witness_ReadsShowStateAndChangeNothing :
    State.reset.phase ≠ .beforeInit ∧ (lit true [(127, 63)]).phase ≠ .beforeInit ∧
      hostRead (.pixel 127 63) (lit true [(127, 63)]) = .ok (.bit true) ∧
      hostRead (.pixel 64 31) (lit false [(0, 32), (63, 31)]) = .ok (.bit false) := by
  refine ⟨by decide, by decide, rfl, rfl⟩

/-- The invariant holds in the reset state, and the reset state steps; so does a waiting state. -/
theorem witness_EveryStepKeepsInvariant :
    State.reset.Inv ∧ (∃ t, step State.reset = .next t) ∧ waitingState.Inv ∧ ∃ t, step waitingState = .next t :=
  ⟨⟨by decide, by decide, by decide, by decide, by decide⟩, ⟨_, rfl⟩,
    ⟨by decide, by decide, by decide, by decide, by decide⟩, ⟨_, rfl⟩⟩

/-- Two states that differ in a stale entry, which step; and two whose step is refused. -/
theorem witness_StaleStackEntriesUnobservable :
    SameButStaleStack (stackState 1) { stackState 1 with stack := (stackState 1).stack.set 1 0x999 } ∧
      (stackState 1).stack[1] ≠ ((stackState 1).stack.set 1 0x999)[1] ∧ (∃ t, step (stackState 1) = .next t) ∧
      SameButStaleStack noPoller { noPoller with stack := noPoller.stack.set 0 1 } ∧
      step noPoller = .refused .noKeyPoller :=
  ⟨⟨rfl, by decide⟩, by decide, ⟨_, rfl⟩, ⟨rfl, by decide⟩, rfl⟩

end Sys2Proof.Tests
end

section
/-! The halted machine (40_step.md R101, R107): what each transaction does once `HALT` is set, and EXIT. -/

namespace Sys2Proof.Machine

/-! ## A transaction by its kind -/

/-- The transaction a machine step performs where it invokes a `step`. -/
theorem step_of_invokesStep (s s0 : State) (inputs : Option (Keys × Byte)) (h : invokesStep s inputs s0) :
    step s = stepTransaction inputs s0 := by
  obtain ⟨hagenda, rfl, rfl⟩ | ⟨rest, hagenda, rfl⟩ := h <;> simp [step, nextTransaction, hagenda, transact]

/-- An admitted `load` writes the program image and does nothing else (R323). -/
theorem eq_writeBytes_of_loadRom (bytes : List Byte) (s u : State) (h : loadRom bytes s = .next u) :
    u = s.writeBytes (BitVec.ofNat 12 programStart) bytes := by
  unfold loadRom at h
  split at h
  · cases h
  · cases h
  · split at h
    · cases h; rfl
    · cases h

/-- A transaction that only needs the first `init` answers its own result when it is not refused. -/
theorem eq_of_afterInit (s t u : State) (h : afterInit s t = .next u) : u = t := by
  unfold afterInit at h
  split at h
  · cases h
  · cases h; rfl

/-! ## Halted (R101) -/

/-- A halted `step` that is not refused changes nothing, whatever its inputs. -/
theorem stepTransaction_of_halted (inputs : Option (Keys × Byte)) (s : State) (hphase : s.phase ≠ .beforeInit)
    (hpoller : s.keyPoller = true) (hhalt : s.halt = true) : stepTransaction inputs s = .next s := by
  simp [stepTransaction, hphase, hpoller, hhalt]

/-- What a halted `step` answers when it answers a state. -/
theorem eq_of_stepTransaction_of_halted (inputs : Option (Keys × Byte)) (s u : State) (hhalt : s.halt = true)
    (h : stepTransaction inputs s = .next u) : u = s := by
  obtain ⟨hphase, hpoller, -⟩ := stepTransaction_cases inputs s u h
  rw [stepTransaction_of_halted inputs s hphase hpoller hhalt] at h
  cases h; rfl

/-- Time passes without a change of `HALT`. -/
@[simp] theorem updateTime_halt (d : Nat) (s : State) : (updateTime d s).halt = s.halt := by
  rw [updateTime_frame]

/-- Bytes are written without a change of `HALT`. -/
@[simp] theorem State.writeBytes_halt (s : State) (a : Addr) (bytes : List Byte) :
    (s.writeBytes a bytes).halt = s.halt := by
  rw [State.writeBytes_frame]

/-- No transaction but `init` clears `HALT` (R35, R101). -/
theorem transact_keeps_halt (t : Transaction) (s u : State) (hhalt : s.halt = true) (ht : t ≠ .init)
    (h : transact t s = .next u) : u.halt = true := by
  cases t with
  | init => exact absurd rfl ht
  | load bytes => rw [eq_writeBytes_of_loadRom bytes s u h, State.writeBytes_halt, hhalt]
  | step inputs => rw [eq_of_stepTransaction_of_halted inputs s u hhalt h, hhalt]
  | updateTime d => rw [eq_of_afterInit s _ u h, updateTime_halt, hhalt]
  | setKeyPoller => cases h; exact hhalt
  | setSpeaker => cases h; exact hhalt
  | read port => rw [eq_of_afterInit s _ u h, hhalt]

/-! ## The timer engine does not look at `HALT` (R107, R286) -/

/-- The countdown loop and the setting of `HALT` commute. -/
theorem tickLoop_setHalt (fuel : Nat) (s : State) : tickLoop fuel s.setHalt = (tickLoop fuel s).setHalt := by
  induction fuel generalizing s with
  | zero => rfl
  | succ rounds ih =>
    by_cases hq : s.acc > s.params.quantumNum
    · rw [tickLoop_go rounds s hq, tickLoop_go rounds s.setHalt hq, ← ih]; rfl
    · rw [tickLoop_stop _ s hq, tickLoop_stop _ s.setHalt hq]

/-- `update_time` and the setting of `HALT` commute. -/
theorem updateTime_setHalt (d : Nat) (s : State) : updateTime d s.setHalt = (updateTime d s).setHalt :=
  tickLoop_setHalt _ { s with acc := s.acc + s.params.quantumDen * d }

/-! ## The obligations -/

/-- EXIT sets `HALT` (R107). -/
theorem exec_exit (s : State) : exec .exit s = .next s.setHalt := rfl

/-- Settles O14: EXIT answers `setHalt`, at which a `step` stands still and with which `update_time` commutes. -/
theorem exitHalts : Obligations.ExitHalts := by
  unfold Obligations.ExitHalts
  intro s
  refine ⟨s.setHalt, exec_exit s, s.setHalt_halt, rfl, s.setHalt_readByte, ?_, ?_⟩
  · intro inputs hphase hpoller
    exact stepTransaction_of_halted inputs s.setHalt hphase hpoller s.setHalt_halt
  · intro d
    exact updateTime_setHalt d s

/-- Settles O9: by what a halted `step` answers, and by cases on the transaction. -/
theorem haltedStepChangesNothing : Obligations.HaltedStepChangesNothing := by
  unfold Obligations.HaltedStepChangesNothing
  refine ⟨?_, ?_⟩
  · intro s s0 inputs hinvokes hphase hpoller hhalt
    rw [step_of_invokesStep s s0 inputs hinvokes, stepTransaction_of_halted inputs s0 hphase hpoller hhalt]
  · intro t s u hhalt ht h
    exact transact_keeps_halt t s u hhalt ht h

end Sys2Proof.Machine
end

section
/-! Control transfer (41_control_flow.md R121 to R128): the jumps and the skips, as writes of `pc` alone. -/

namespace Sys2Proof.Machine

/-! ## What the instructions answer -/

/-- JP (R121). -/
theorem exec_jp (nnn : Addr) (s : State) : exec (.jp nnn) s = .next (s.setPc nnn) := rfl

/-- JP V0 (R127). -/
theorem exec_jpV0 (nnn : Addr) (s : State) :
    exec (.jpV0 nnn) s = .next (s.setPc (BitVec.ofNat 12 ((s.getV 0).toNat + nnn.toNat))) := rfl

/-- SE on a byte (R123). -/
theorem exec_seImm (x : Reg) (kk : Byte) (s : State) : exec (.seImm x kk) s = skipIf (s.getV x == kk) s := rfl

/-- SNE on a byte (R124). -/
theorem exec_sneImm (x : Reg) (kk : Byte) (s : State) : exec (.sneImm x kk) s = skipIf (s.getV x != kk) s := rfl

/-- SE on a register (R125). -/
theorem exec_seReg (x y : Reg) (s : State) : exec (.seReg x y) s = skipIf (s.getV x == s.getV y) s := rfl

/-- SNE on a register (R126). -/
theorem exec_sneReg (x y : Reg) (s : State) : exec (.sneReg x y) s = skipIf (s.getV x != s.getV y) s := rfl

/-! ## The frame of a write of `pc` -/

/-- A write of `pc` is one of `pc` only, and no byte of memory reads otherwise. -/
theorem onlyPc_setPc (s : State) (a : Addr) : OnlyPc s (s.setPc a) := ⟨rfl, s.setPc_readByte a⟩

/-- A skip answers a state that differs in `pc` only (R128): `pc` is 2 more exactly when the condition holds. -/
theorem skipIf_onlyPc (condition : Bool) (s : State) :
    ∃ t, skipIf condition s = .next t ∧ OnlyPc s t ∧ t.pc = if condition then s.pc + 2 else s.pc :=
  ⟨s.setPc (if condition then s.pc + 2 else s.pc), skipIf_eq condition s, onlyPc_setPc s _, s.setPc_pc _⟩

/-- A skip on equal bytes. -/
theorem skipIf_beq (a b : Byte) (s : State) :
    ∃ t, skipIf (a == b) s = .next t ∧ OnlyPc s t ∧ t.pc = if a = b then s.pc + 2 else s.pc := by
  simpa only [beq_iff_eq] using skipIf_onlyPc (a == b) s

/-- A skip on unequal bytes. -/
theorem skipIf_bne (a b : Byte) (s : State) :
    ∃ t, skipIf (a != b) s = .next t ∧ OnlyPc s t ∧ t.pc = if a = b then s.pc else s.pc + 2 := by
  simpa only [bne_iff_ne, ne_eq, ite_not] using skipIf_onlyPc (a != b) s

/-! ## The obligations -/

/-- Settles O15: both jumps answer `setPc`, and a sum cut to 12 bits is the sum mod 4096. -/
theorem jumpsSetPc : Obligations.JumpsSetPc := by
  unfold Obligations.JumpsSetPc
  intro nnn s
  refine ⟨⟨s.setPc nnn, exec_jp nnn s, s.setPc_pc nnn, onlyPc_setPc s nnn⟩, ?_⟩
  refine ⟨_, exec_jpV0 nnn s, ?_, onlyPc_setPc s _⟩
  rw [State.setPc_pc, BitVec.toNat_ofNat]

/-- Settles O16: each of the four is a skip on equal or on unequal bytes. -/
theorem registerSkips : Obligations.RegisterSkips := by
  unfold Obligations.RegisterSkips
  intro x y kk s
  rw [exec_seImm, exec_sneImm, exec_seReg, exec_sneReg]
  exact ⟨skipIf_beq (s.getV x) kk s, skipIf_bne (s.getV x) kk s,
    skipIf_beq (s.getV x) (s.getV y) s, skipIf_bne (s.getV x) (s.getV y) s⟩

end Sys2Proof.Machine
end

section
/-! Registers and arithmetic (42_alu.md R152 to R154): the loads and the immediate addition, each one write of a
register. -/

namespace Sys2Proof.Machine

/-- The masked sum is the sum mod 256. -/
theorem toNat_sumByte (a b : Byte) : (sumByte a b).toNat = (a.toNat + b.toNat) % 256 := BitVec.toNat_ofNat _ _

/-! ## What the instructions answer -/

/-- LD of a byte (R152). -/
theorem exec_ldImm (x : Reg) (kk : Byte) (s : State) : exec (.ldImm x kk) s = .next (s.setV x kk) := rfl

/-- ADD of a byte (R153). -/
theorem exec_addImm (x : Reg) (kk : Byte) (s : State) :
    exec (.addImm x kk) s = .next (s.setV x (sumByte (s.getV x) kk)) := rfl

/-- LD of a register (R154). -/
theorem exec_ldReg (x y : Reg) (s : State) : exec (.ldReg x y) s = .next (s.setV x (s.getV y)) := rfl

/-! ## The frame of a write of a register -/

/-- A write of `Vx` is one of `Vx` only, and no byte of memory reads otherwise. -/
theorem onlyReg_setV (s : State) (x : Reg) (b : Byte) : OnlyReg x s (s.setV x b) :=
  ⟨⟨rfl, s.setV_readByte x b⟩, fun k hk => s.getV_setV_other x k b hk⟩

/-! ## The obligation -/

/-- Settles O20: each of the three answers `setV`, ADD with the sum mod 256. -/
theorem loadsAndImmediateAdd : Obligations.LoadsAndImmediateAdd := by
  unfold Obligations.LoadsAndImmediateAdd
  intro x y kk s
  refine ⟨⟨_, exec_ldImm x kk s, onlyReg_setV s x _, s.getV_setV_same x _⟩, ?_,
    ⟨_, exec_ldReg x y s, onlyReg_setV s x _, s.getV_setV_same x _⟩⟩
  refine ⟨_, exec_addImm x kk s, onlyReg_setV s x _, ?_⟩
  rw [State.getV_setV_same, toNat_sumByte]

end Sys2Proof.Machine
end

section
/-! Address register (43_memory_index.md R180 to R182): the loads of `I` and the addition to it, each one write of
`I`. -/

namespace Sys2Proof.Machine

/-! ## The addresses -/

/-- An offset from `I` is added mod 4096 (R189). -/
theorem State.toNat_addrAt (s : State) (k : Nat) : (s.addrAt k).toNat = (s.i.toNat + k) % 4096 :=
  BitVec.toNat_ofNat _ _

/-- A glyph's address: its base plus the size of a glyph for each count of the low nibble, mod 4096. -/
theorem toNat_glyphAddr (base size : Nat) (b : Byte) :
    (glyphAddr base size b).toNat = (base + b.toNat % 16 * size) % 4096 := BitVec.toNat_ofNat _ _

/-- The small font ends below 4096, so the address of its glyphs does not wrap. -/
theorem toNat_fontGlyphAddr (b : Byte) :
    (glyphAddr fontBase fontGlyphBytes b).toNat = 0x050 + b.toNat % 16 * 5 := by
  rw [toNat_glyphAddr, fontBase, fontGlyphBytes]
  omega

/-! ## What the instructions answer -/

/-- LD I (R180). -/
theorem exec_ldI (nnn : Addr) (s : State) : exec (.ldI nnn) s = .next (s.setI nnn) := rfl

/-- ADD I (R181). -/
theorem exec_addI (x : Reg) (s : State) :
    exec (.addI x) s = .next (s.setI (s.addrAt (s.getV x).toNat)) := rfl

/-- LD F (R182). -/
theorem exec_ldFont (x : Reg) (s : State) :
    exec (.ldFont x) s = .next (s.setI (glyphAddr fontBase fontGlyphBytes (s.getV x))) := rfl

/-! ## The frame of a write of `I` -/

/-- A write of `I` is one of `I` only, and no byte of memory reads otherwise. -/
theorem onlyI_setI (s : State) (a : Addr) : OnlyI s (s.setI a) := ⟨rfl, s.setI_readByte a⟩

/-! ## The obligation -/

/-- Settles O26: each of the three answers `setI`, ADD with the sum mod 4096, LD F with the glyph's address. -/
theorem addressRegisterLoads : Obligations.AddressRegisterLoads := by
  unfold Obligations.AddressRegisterLoads
  intro x nnn s
  refine ⟨⟨_, exec_ldI nnn s, onlyI_setI s nnn, s.setI_i nnn⟩, ?_, ?_⟩
  · refine ⟨_, exec_addI x s, onlyI_setI s _, ?_⟩
    rw [State.setI_i, State.toNat_addrAt]
  · refine ⟨_, exec_ldFont x s, onlyI_setI s _, ?_⟩
    rw [State.setI_i, toNat_fontGlyphAddr]

end Sys2Proof.Machine
end

section
/-! The delay timer (45_timers_keys.md R255, R257): its read into a register and its load from one. -/

namespace Sys2Proof.Machine

/-! ## What the instructions answer -/

/-- LD Vx, DT (R255). -/
theorem exec_ldFromDt (x : Reg) (s : State) : exec (.ldFromDt x) s = .next (s.setV x s.dt) := rfl

/-- LD DT, Vx (R257). -/
theorem exec_ldDt (x : Reg) (s : State) : exec (.ldDt x) s = .next (s.setDt (s.getV x)) := rfl

/-! ## The obligation -/

/-- Settles O41: `Fx07` answers `setV` with `DT`, `Fx15` answers `setDt` with `Vx`, which leaves `ACC` as it is. -/
theorem delayTimerMoves : Obligations.DelayTimerMoves := by
  unfold Obligations.DelayTimerMoves
  intro x s
  refine ⟨⟨_, exec_ldFromDt x s, onlyReg_setV s x _, s.getV_setV_same x _⟩, ?_⟩
  exact ⟨_, exec_ldDt x s, s.setDt_dt _, rfl, s.setDt_readByte _⟩

end Sys2Proof.Machine
end

section
/-! The encoder and the decoder (30_encoding.md R71 to R75): each undoes the other, the words that decode to no
instruction are those of R75, and the opcode map has for every word the one row of what it decodes to. -/

namespace Sys2Proof

/-! ## Decoding an encoded instruction -/

/-- Settles O1: a word assembled from fields has these fields, and the decoder reads them. -/
theorem decodeInvertsEncode : Obligations.DecodeInvertsEncode := by
  unfold Obligations.DecodeInvertsEncode
  intro i _
  cases i with
  | cls | ret | scr | scl | exit | low | high => decide
  | scd n => revert n; decide
  | jp | call | ldI | jpV0 => simp [encode, decode, fields_assembleNNN]
  | seImm | sneImm | ldImm | addImm | rnd => simp [encode, decode, fields_assembleXKK]
  | seReg | sneReg | drw => simp [encode, decode, fields_assembleXYN]
  | ldReg | orReg | andReg | xorReg | addReg | subReg | shr | subn | shl =>
    simp [encode, decode, decode8, fields_assembleXYN]
  | skp | sknp => simp [encode, decode, decodeE, fields_assembleXKK]
  | ldFromDt | ldKey | ldDt | ldSt | addI | ldFont | ldHFont | bcd | storeRegs | loadRegs | storeBank | loadBank =>
    simp [encode, decode, decodeF, fields_assembleXKK]

/-! ## Encoding a decoded word -/

theorem assembleNNN_eq (w : Word) (p : BitVec 4) (hp : fieldP w = p) : assembleNNN p (fieldNNN w) = w := by
  rw [← hp, reassembleNNN]

theorem assembleXKK_eq (w : Word) (p : BitVec 4) (kk : Byte) (hp : fieldP w = p) (hk : fieldKK w = kk) :
    assembleXKK p (fieldX w) kk = w := by
  rw [← hp, ← hk, reassembleXKK]

theorem assembleXYN_eq (w : Word) (p : BitVec 4) (n : Nibble) (hp : fieldP w = p) (hn : fieldN w = n) :
    assembleXYN p (fieldX w) (fieldY w) n = w := by
  rw [← hp, ← hn, reassembleXYN]

/-- A word rebuilt from its bits 15-4 and its field `n`. -/
theorem append_fieldN_eq (w : Word) (a : BitVec 12) (ha : w.extractLsb' 4 12 = a) : a ++ fieldN w = w := by
  apply BitVec.eq_of_toNat_eq
  have hw := w.isLt
  rw [← ha, toNat_append, fieldN_toNat, BitVec.extractLsb'_toNat, Nat.shiftRight_eq_div_pow]
  omega

/-- If the result is an instruction, then the word is that instruction's. -/
def EncodedBy (w : Word) (d : Decoded) : Prop := ∀ i, d = .instr i → encode i = w

theorem encodedBy_instr (w : Word) (i : Instr) (h : encode i = w) : EncodedBy w (.instr i) := by
  rintro _ ⟨⟩
  exact h

theorem encodedBy_noOp (w : Word) : EncodedBy w .noOp := nofun

theorem encodedBy_decode0 (w : Word) : EncodedBy w (decode0 w) := by
  unfold decode0
  refine iteInduction (fun h => encodedBy_instr w _ (append_fieldN_eq w _ h)) fun _ => ?_
  repeat refine iteInduction (fun h => encodedBy_instr w _ h.symm) fun _ => ?_
  exact encodedBy_noOp w

theorem encodedBy_decode8 (w : Word) (hp : fieldP w = 0x8#4) : EncodedBy w (decode8 w) := by
  unfold decode8
  repeat refine iteInduction (fun h => encodedBy_instr w _ (assembleXYN_eq w _ _ hp h)) fun _ => ?_
  exact encodedBy_noOp w

theorem encodedBy_decodeE (w : Word) (hp : fieldP w = 0xE#4) : EncodedBy w (decodeE w) := by
  unfold decodeE
  repeat refine iteInduction (fun h => encodedBy_instr w _ (assembleXKK_eq w _ _ hp h)) fun _ => ?_
  exact encodedBy_noOp w

theorem encodedBy_decodeF (w : Word) (hp : fieldP w = 0xF#4) : EncodedBy w (decodeF w) := by
  unfold decodeF
  repeat refine iteInduction (fun h => encodedBy_instr w _ (assembleXKK_eq w _ _ hp h)) fun _ => ?_
  exact encodedBy_noOp w

/-- The sixteen opcode families (R73). -/
theorem fieldP_cases (w : Word) :
    fieldP w = 0x0#4 ∨ fieldP w = 0x1#4 ∨ fieldP w = 0x2#4 ∨ fieldP w = 0x3#4 ∨ fieldP w = 0x4#4 ∨ fieldP w = 0x5#4 ∨
      fieldP w = 0x6#4 ∨ fieldP w = 0x7#4 ∨ fieldP w = 0x8#4 ∨ fieldP w = 0x9#4 ∨ fieldP w = 0xA#4 ∨ fieldP w = 0xB#4 ∨
      fieldP w = 0xC#4 ∨ fieldP w = 0xD#4 ∨ fieldP w = 0xE#4 ∨ fieldP w = 0xF#4 := by
  generalize fieldP w = p
  revert p
  decide

/-- No bit of a word is dropped by the decoder: family by family, the fields it reads and the codes it compares make
up the word. -/
theorem encodedBy_decode (w : Word) : EncodedBy w (decode w) := by
  rcases fieldP_cases w with hp | hp | hp | hp | hp | hp | hp | hp | hp | hp | hp | hp | hp | hp | hp | hp <;>
    simp only [decode, hp, BitVec.reduceEq, if_true, if_false]
  · exact encodedBy_decode0 w
  · exact encodedBy_instr w (.jp _) (assembleNNN_eq w _ hp)
  · exact encodedBy_instr w (.call _) (assembleNNN_eq w _ hp)
  · exact encodedBy_instr w (.seImm _ _) (assembleXKK_eq w _ _ hp rfl)
  · exact encodedBy_instr w (.sneImm _ _) (assembleXKK_eq w _ _ hp rfl)
  · refine iteInduction (fun hn => ?_) fun _ => encodedBy_noOp w
    exact encodedBy_instr w (.seReg _ _) (assembleXYN_eq w _ _ hp hn)
  · exact encodedBy_instr w (.ldImm _ _) (assembleXKK_eq w _ _ hp rfl)
  · exact encodedBy_instr w (.addImm _ _) (assembleXKK_eq w _ _ hp rfl)
  · exact encodedBy_decode8 w hp
  · refine iteInduction (fun hn => ?_) fun _ => encodedBy_noOp w
    exact encodedBy_instr w (.sneReg _ _) (assembleXYN_eq w _ _ hp hn)
  · exact encodedBy_instr w (.ldI _) (assembleNNN_eq w _ hp)
  · exact encodedBy_instr w (.jpV0 _) (assembleNNN_eq w _ hp)
  · exact encodedBy_instr w (.rnd _ _) (assembleXKK_eq w _ _ hp rfl)
  · exact encodedBy_instr w (.drw _ _ _) (assembleXYN_eq w _ _ hp rfl)
  · exact encodedBy_decodeE w hp
  · exact encodedBy_decodeF w hp

/-- Settles O2: the fields and codes that the decoder found in the word are those the encoder puts back. -/
theorem encodeInvertsDecode : Obligations.EncodeInvertsDecode := by
  unfold Obligations.EncodeInvertsDecode
  exact encodedBy_decode

/-! ## The no-op space (R75) -/

theorem ite_instr_eq_noOp (c : Prop) [Decidable c] (i : Instr) (d : Decoded) :
    (if c then Decoded.instr i else d) = .noOp ↔ ¬ c ∧ d = .noOp := by
  split_ifs with h <;> simp [h]

theorem word_eq_iff (w v : Word) : w = v ↔ w.toNat = v.toNat := BitVec.toNat_inj.symm

theorem fieldN_eq_iff (w : Word) (n : Nibble) : fieldN w = n ↔ w.toNat % 16 = n.toNat := by
  rw [← BitVec.toNat_inj, fieldN_toNat]

theorem fieldKK_eq_iff (w : Word) (kk : Byte) : fieldKK w = kk ↔ w.toNat % 256 = kk.toNat := by
  rw [← BitVec.toNat_inj, fieldKK_toNat]

theorem highBits_eq_iff (w : Word) (a : BitVec 12) : w.extractLsb' 4 12 = a ↔ w.toNat / 16 = a.toNat := by
  have hw := w.isLt
  rw [← BitVec.toNat_inj, BitVec.extractLsb'_toNat, Nat.shiftRight_eq_div_pow]
  omega

theorem decode0_eq_noOp (w : Word) : decode0 w = .noOp ↔
    ¬ (0x00C0 ≤ w.toNat ∧ w.toNat ≤ 0x00CF) ∧ w.toNat ≠ 0x00E0 ∧ w.toNat ≠ 0x00EE ∧
      ¬ (0x00FB ≤ w.toNat ∧ w.toNat ≤ 0x00FF) := by
  simp only [decode0, ite_instr_eq_noOp, highBits_eq_iff, word_eq_iff, BitVec.toNat_ofNat, and_true]
  omega

theorem decode8_eq_noOp (w : Word) : decode8 w = .noOp ↔ w.toNat % 16 ∈ [0x8, 0x9, 0xA, 0xB, 0xC, 0xD, 0xF] := by
  simp only [decode8, ite_instr_eq_noOp, fieldN_eq_iff, BitVec.toNat_ofNat, List.mem_cons, List.not_mem_nil, and_true,
    or_false]
  omega

theorem decodeE_eq_noOp (w : Word) : decodeE w = .noOp ↔ w.toNat % 256 ∉ [0x9E, 0xA1] := by
  simp [decodeE, ite_instr_eq_noOp, fieldKK_eq_iff]

theorem decodeF_eq_noOp (w : Word) : decodeF w = .noOp ↔
    w.toNat % 256 ∉ [0x07, 0x0A, 0x15, 0x18, 0x1E, 0x29, 0x30, 0x33, 0x55, 0x65, 0x75, 0x85] := by
  simp [decodeF, ite_instr_eq_noOp, fieldKK_eq_iff]

/-- Settles O4: by the opcode family; within it the words that no pattern takes are counted out. -/
theorem noOpSpaceByFamily : Obligations.NoOpSpaceByFamily := by
  unfold Obligations.NoOpSpaceByFamily
  intro w
  rw [← fieldP_toNat]
  rcases fieldP_cases w with hp | hp | hp | hp | hp | hp | hp | hp | hp | hp | hp | hp | hp | hp | hp | hp <;>
    simp [decode, hp, decode0_eq_noOp, decode8_eq_noOp, decodeE_eq_noOp, decodeF_eq_noOp, fieldN_eq_iff]

/-! ## The opcode map (R74) -/

/-- A mask of all ones over a field leaves the field. -/
theorem fieldP_of_mask (w m v : Word) (h : w &&& m = v) (hm : fieldP m = 0xF#4) : fieldP w = fieldP v := by
  subst h
  rw [fieldP, fieldP, BitVec.extractLsb'_and, ← fieldP, ← fieldP, hm]
  exact BitVec.and_allOnes.symm

theorem fieldN_of_mask (w m v : Word) (h : w &&& m = v) (hm : fieldN m = 0xF#4) : fieldN w = fieldN v := by
  subst h
  rw [fieldN, fieldN, BitVec.extractLsb'_and, ← fieldN, ← fieldN, hm]
  exact BitVec.and_allOnes.symm

theorem fieldKK_of_mask (w m v : Word) (h : w &&& m = v) (hm : fieldKK m = 0xFF#8) : fieldKK w = fieldKK v := by
  subst h
  rw [fieldKK, fieldKK, BitVec.extractLsb'_and, ← fieldKK, ← fieldKK, hm]
  exact BitVec.and_allOnes.symm

theorem highBits_of_mask (w m v : Word) (h : w &&& m = v) (hm : m.extractLsb' 4 12 = 0xFFF#12) :
    w.extractLsb' 4 12 = v.extractLsb' 4 12 := by
  subst h
  rw [BitVec.extractLsb'_and, hm]
  exact BitVec.and_allOnes.symm

/-- The fields of a word written as a number. -/
theorem fieldP_ofNat (n : Nat) : fieldP (BitVec.ofNat 16 n) = BitVec.ofNat 4 (n / 4096) := by
  apply BitVec.eq_of_toNat_eq
  rw [fieldP_toNat, BitVec.toNat_ofNat, BitVec.toNat_ofNat]
  omega

theorem fieldN_ofNat (n : Nat) : fieldN (BitVec.ofNat 16 n) = BitVec.ofNat 4 n := by
  apply BitVec.eq_of_toNat_eq
  rw [fieldN_toNat, BitVec.toNat_ofNat, BitVec.toNat_ofNat]
  omega

theorem fieldKK_ofNat (n : Nat) : fieldKK (BitVec.ofNat 16 n) = BitVec.ofNat 8 n := by
  apply BitVec.eq_of_toNat_eq
  rw [fieldKK_toNat, BitVec.toNat_ofNat, BitVec.toNat_ofNat]
  omega

/-- The row of the opcode map that a decoded word belongs to, if any. -/
def Decoded.row (d : Decoded) : Option OpcodeRow :=
  match d with
  | .instr i => some (rowOf i)
  | .noOp => none

/-- A word that an instruction's row accepts decodes to an instruction of that row: the mask keeps the fields that the
decoder compares. -/
theorem row_decode_of_rowMatches (w : Word) (i : Instr) (h : rowMatches (rowOf i) w = true) :
    (decode w).row = some (rowOf i) := by
  replace h : w &&& (rowOf i).mask = (rowOf i).pattern := beq_iff_eq.1 h
  cases i with
  | cls | ret | scr | scl | exit | low | high =>
    obtain rfl : w = _ := BitVec.and_allOnes.symm.trans h
    decide
  | scd n =>
    have hp := fieldP_of_mask w 0xFFF0#16 _ h (by decide)
    have ha := highBits_of_mask w 0xFFF0#16 _ h (by decide)
    simp [decode, decode0, hp, ha, rowOf, fieldP_ofNat, Decoded.row]
  | jp | call | ldI | jpV0 | seImm | sneImm | ldImm | addImm | rnd | drw =>
    have hp := fieldP_of_mask w 0xF000#16 _ h (by decide)
    simp [decode, hp, rowOf, fieldP_ofNat, Decoded.row]
  | seReg | sneReg | ldReg | orReg | andReg | xorReg | addReg | subReg | shr | subn | shl =>
    have hp := fieldP_of_mask w 0xF00F#16 _ h (by decide)
    have hn := fieldN_of_mask w 0xF00F#16 _ h (by decide)
    simp [decode, decode8, hp, hn, rowOf, fieldP_ofNat, fieldN_ofNat, Decoded.row]
  | skp | sknp | ldFromDt | ldKey | ldDt | ldSt | addI | ldFont | ldHFont | bcd | storeRegs | loadRegs | storeBank
  | loadBank =>
    have hp := fieldP_of_mask w 0xF0FF#16 _ h (by decide)
    have hk := fieldKK_of_mask w 0xF0FF#16 _ h (by decide)
    simp [decode, decodeE, decodeF, hp, hk, rowOf, fieldP_ofNat, fieldKK_ofNat, Decoded.row]

open Laws in
/-- An encoded instruction is accepted by the instruction's own row. -/
theorem rowMatches_encode (i : Instr) : rowMatches (rowOf i) (encode i) = true :=
  match i with
  | .cls => EncodesInRow.cls
  | .ret => EncodesInRow.ret
  | .scd n => EncodesInRow.scd n
  | .scr => EncodesInRow.scr
  | .scl => EncodesInRow.scl
  | .exit => EncodesInRow.exit
  | .low => EncodesInRow.low
  | .high => EncodesInRow.high
  | .jp nnn => EncodesInRow.jp nnn
  | .call nnn => EncodesInRow.call nnn
  | .seImm x kk => EncodesInRow.seImm x kk
  | .sneImm x kk => EncodesInRow.sneImm x kk
  | .seReg x y => EncodesInRow.seReg x y
  | .ldImm x kk => EncodesInRow.ldImm x kk
  | .addImm x kk => EncodesInRow.addImm x kk
  | .ldReg x y => EncodesInRow.ldReg x y
  | .orReg x y => EncodesInRow.orReg x y
  | .andReg x y => EncodesInRow.andReg x y
  | .xorReg x y => EncodesInRow.xorReg x y
  | .addReg x y => EncodesInRow.addReg x y
  | .subReg x y => EncodesInRow.subReg x y
  | .shr x y => EncodesInRow.shr x y
  | .subn x y => EncodesInRow.subn x y
  | .shl x y => EncodesInRow.shl x y
  | .sneReg x y => EncodesInRow.sneReg x y
  | .ldI nnn => EncodesInRow.ldI nnn
  | .jpV0 nnn => EncodesInRow.jpV0 nnn
  | .rnd x kk => EncodesInRow.rnd x kk
  | .drw x y n => EncodesInRow.drw x y n
  | .skp x => EncodesInRow.skp x
  | .sknp x => EncodesInRow.sknp x
  | .ldFromDt x => EncodesInRow.ldFromDt x
  | .ldKey x => EncodesInRow.ldKey x
  | .ldDt x => EncodesInRow.ldDt x
  | .ldSt x => EncodesInRow.ldSt x
  | .addI x => EncodesInRow.addI x
  | .ldFont x => EncodesInRow.ldFont x
  | .ldHFont x => EncodesInRow.ldHFont x
  | .bcd x => EncodesInRow.bcd x
  | .storeRegs x => EncodesInRow.storeRegs x
  | .loadRegs x => EncodesInRow.loadRegs x
  | .storeBank x => EncodesInRow.storeBank x
  | .loadBank x => EncodesInRow.loadBank x

/-- Every row's pattern, its operand fields 0, is itself a word of the row. -/
theorem row_decode_pattern : ∀ row ∈ opcodeMap, (decode row.pattern).row = some row := by decide

theorem opcodeMap_nodup : opcodeMap.Nodup := by decide

theorem rowOf_mem_opcodeMap (i : Instr) : rowOf i ∈ opcodeMap := by
  cases i <;> exact List.contains_iff_mem.1 rfl

/-- A decoded word's row is an instruction's row. -/
theorem Decoded.row_eq_some (d : Decoded) (row : OpcodeRow) (h : d.row = some row) :
    ∃ i, d = .instr i ∧ rowOf i = row := by
  cases d with
  | instr i => exact ⟨i, rfl, Option.some.inj h⟩
  | noOp => cases h

/-- A row of the opcode map accepts exactly the words that decode to an instruction of the row. -/
theorem rowMatches_iff (w : Word) (row : OpcodeRow) (hrow : row ∈ opcodeMap) :
    rowMatches row w = true ↔ (decode w).row = some row := by
  constructor
  · intro h
    obtain ⟨i, -, rfl⟩ := Decoded.row_eq_some _ _ (row_decode_pattern row hrow)
    exact row_decode_of_rowMatches w i h
  · intro h
    obtain ⟨i, hi, rfl⟩ := Decoded.row_eq_some _ _ h
    rw [← encodeInvertsDecode w i hi]
    exact rowMatches_encode i

/-- The one element of a list without repetition that satisfies a test. -/
theorem filter_eq_singleton {α : Type} [DecidableEq α] (l : List α) (p : α → Bool) (a : α) (hl : l.Nodup) (ha : a ∈ l)
    (hp : ∀ b ∈ l, p b = true ↔ b = a) : l.filter p = [a] := by
  have hfilter : l.filter p = l.filter (· == a) := List.filter_congr fun b hb => by
    rw [Bool.eq_iff_iff, hp b hb, beq_iff_eq]
  rw [hfilter, List.filter_beq, List.count_eq_one_of_mem hl ha, List.replicate_one]

/-- Settles O3: a row accepts a word exactly when it is the row of what the word decodes to, and no row stands twice in
the map. -/
theorem dispatchAgreesWithOpcodeMap : Obligations.DispatchAgreesWithOpcodeMap := by
  unfold Obligations.DispatchAgreesWithOpcodeMap
  intro w
  cases hd : decode w with
  | instr i =>
    refine filter_eq_singleton _ _ _ opcodeMap_nodup (rowOf_mem_opcodeMap i) fun row hrow => ?_
    rw [rowMatches_iff w row hrow, hd, Decoded.row, Option.some_inj, eq_comm]
  | noOp =>
    refine List.filter_eq_nil_iff.2 fun row hrow => ?_
    rw [rowMatches_iff w row hrow, hd, Decoded.row]
    nofun

/-- Settles O5: each word is decoded as it stands. -/
theorem decodedWordsFromSpec : Obligations.DecodedWordsFromSpec := by
  unfold Obligations.DecodedWordsFromSpec
  decide

end Sys2Proof
end

section
/-! What each instruction of 30_encoding.md R74 answers (40_step.md R104), for those of which no equation stands above:
the instruction's effect in terms of the named operations. -/

namespace Sys2Proof.Machine

/-! ## Control transfer and the key skips (R120, R122, R253, R254) -/

theorem exec_ret (s : State) : exec .ret s = .next s.popToPc := rfl

theorem exec_call (nnn : Addr) (s : State) : exec (.call nnn) s = .next ((s.push s.pc).setPc nnn) := rfl

theorem exec_skp (x : Reg) (s : State) : exec (.skp x) s = skipIf (s.keyOf x) s := rfl

theorem exec_sknp (x : Reg) (s : State) : exec (.sknp x) s = skipIf (!s.keyOf x) s := rfl

/-! ## Registers and arithmetic (R155 to R163) -/

theorem exec_orReg (x y : Reg) (s : State) : exec (.orReg x y) s = .next (s.setV x (s.getV x ||| s.getV y)) := rfl

theorem exec_andReg (x y : Reg) (s : State) : exec (.andReg x y) s = .next (s.setV x (s.getV x &&& s.getV y)) := rfl

theorem exec_xorReg (x y : Reg) (s : State) : exec (.xorReg x y) s = .next (s.setV x (s.getV x ^^^ s.getV y)) := rfl

theorem exec_addReg (x y : Reg) (s : State) :
    exec (.addReg x y) s =
      .next (s.setVThenFlag x (sumByte (s.getV x) (s.getV y)) (carry (s.getV x) (s.getV y))) := rfl

theorem exec_subReg (x y : Reg) (s : State) :
    exec (.subReg x y) s =
      .next (s.setVThenFlag x (diffByte (s.getV x) (s.getV y)) (exceeds (s.getV x) (s.getV y))) := rfl

theorem exec_shr (x y : Reg) (s : State) :
    exec (.shr x y) s = .next (s.setVThenFlag x (halfByte (s.getV x)) (lowBit (s.getV x))) := rfl

theorem exec_subn (x y : Reg) (s : State) :
    exec (.subn x y) s =
      .next (s.setVThenFlag x (diffByte (s.getV y) (s.getV x)) (exceeds (s.getV y) (s.getV x))) := rfl

theorem exec_shl (x y : Reg) (s : State) :
    exec (.shl x y) s = .next (s.setVThenFlag x (doubleByte (s.getV x)) (highBit (s.getV x))) := rfl

theorem exec_rnd (x : Reg) (kk : Byte) (s : State) : exec (.rnd x kk) s = .next (s.setV x (s.rnd &&& kk)) := rfl

/-! ## Address register, loads and stores (R183 to R188) -/

theorem exec_ldHFont (x : Reg) (s : State) :
    exec (.ldHFont x) s = .next (s.setI (glyphAddr s.params.extFontBase.toNat extFontGlyphBytes (s.getV x))) := rfl

theorem exec_bcd (x : Reg) (s : State) :
    exec (.bcd x) s = .next (((s.writeByte (s.addrAt 0) (hundreds (s.getV x))).writeByte (s.addrAt 1)
      (tens (s.getV x))).writeByte (s.addrAt 2) (ones (s.getV x))) := rfl

theorem exec_storeRegs (x : Reg) (s : State) :
    exec (.storeRegs x) s =
      .next (afterBulk x (loopTo x.val (fun k t => t.writeByte (t.addrAt k) (t.getV (regAt k))) s)) := rfl

theorem exec_loadRegs (x : Reg) (s : State) :
    exec (.loadRegs x) s =
      .next (afterBulk x (loopTo x.val (fun k t => t.setV (regAt k) (t.readByte (t.addrAt k))) s)) := rfl

theorem exec_storeBank (x : Reg) (s : State) :
    exec (.storeBank x) s = .next (loopTo (bankTop x) (fun k t => t.setR (bankAt k) (t.getV (regAt k))) s) := rfl

theorem exec_loadBank (x : Reg) (s : State) :
    exec (.loadBank x) s = .next (loopTo (bankTop x) (fun k t => t.setV (regAt k) (t.getR (bankAt k))) s) := rfl

/-! ## Display (R220 to R226) -/

theorem exec_cls (s : State) : exec .cls s = .next (s.setDisplay (Display.clearAll s.display)) := rfl

theorem exec_scd (n : Nibble) (s : State) :
    exec (.scd n) s = .next (s.setDisplay (Display.scrollDown s.ext n.toNat s.display)) := rfl

theorem exec_scr (s : State) : exec .scr s = .next (s.setDisplay (Display.scrollRight s.ext s.display)) := rfl

theorem exec_scl (s : State) : exec .scl s = .next (s.setDisplay (Display.scrollLeft s.ext s.display)) := rfl

theorem exec_low (s : State) : exec .low s = .next (s.setExt false) := rfl

theorem exec_high (s : State) : exec .high s = .next (s.setExt true) := rfl

/-- The sprite `Dxyn` draws (R226). -/
def drawnSprite (x y : Reg) (n : Nibble) (s : State) : Drawing :=
  drawSprite s (spriteShape s.ext n) (s.getV x).toNat (s.getV y).toNat

theorem exec_drw (x y : Reg) (n : Nibble) (s : State) :
    exec (.drw x y n) s =
      .next ((s.setDisplay (drawnSprite x y n s).display).setFlag (drawnSprite x y n s).hit) := rfl

/-! ## Keys and the sound timer (R256, R258) -/

theorem exec_ldKey (x : Reg) (s : State) : exec (.ldKey x) s = .next (s.setWait (.waiting x)) := rfl

theorem exec_ldSt (x : Reg) (s : State) : exec (.ldSt x) s = .next (s.setSt (s.getV x)) := rfl

/-- No instruction is refused, in any state (R280, R284). -/
theorem exists_exec_eq_next (i : Instr) (s : State) : ∃ t, exec i s = .next t := by
  cases i <;> exact ⟨_, rfl⟩

end Sys2Proof.Machine
end

section
/-! Who writes what (10_state.md R23 to R37, 20_memory.md R57): an instruction leaves every piece of state that its rule
does not name. The property is kept along a chain of operations, so that an instruction's frame is put together from
those of the operations it is made of. -/

namespace Sys2Proof.Machine

/-- From `s` to `t`, only what the rules let the instruction `i` write has changed. -/
structure WritesOnlyNamed (i : Instr) (s t : State) : Prop where
  reg : ∀ k, writesReg i k = false → t.getV k = s.getV k
  mem : writesMem i = false → t.mem = s.mem
  pc : writesPc i = false → t.pc = s.pc
  addr : writesI i s.params = false → t.i = s.i
  stack : writesStack i = false → t.stack = s.stack
  sp : writesStack i = false → t.sp = s.sp
  display : writesDisplay i = false → t.display = s.display
  ext : writesExt i = false → t.ext = s.ext
  dt : writesDt i = false → t.dt = s.dt
  st : writesSt i = false → t.st = s.st
  wait : writesWait i = false → t.wait = s.wait
  halt : writesHalt i = false → t.halt = s.halt
  bank : writesBank i = false → t.r = s.r
  acc : t.acc = s.acc
  spk : t.spk = s.spk
  keys : t.keys = s.keys
  rnd : t.rnd = s.rnd
  draws : t.draws = s.draws
  phase : t.phase = s.phase
  keyPoller : t.keyPoller = s.keyPoller
  agenda : t.agenda = s.agenda
  params : t.params = s.params

namespace WritesOnlyNamed

variable {i : Instr} {s t u : State}

theorem refl (i : Instr) (s : State) : WritesOnlyNamed i s s := by
  constructor <;> intros <;> rfl

theorem trans (h : WritesOnlyNamed i s t) (h' : WritesOnlyNamed i t u) : WritesOnlyNamed i s u where
  reg k hk := (h'.reg k hk).trans (h.reg k hk)
  mem hw := (h'.mem hw).trans (h.mem hw)
  pc hw := (h'.pc hw).trans (h.pc hw)
  addr hw := (h'.addr (h.params ▸ hw)).trans (h.addr hw)
  stack hw := (h'.stack hw).trans (h.stack hw)
  sp hw := (h'.sp hw).trans (h.sp hw)
  display hw := (h'.display hw).trans (h.display hw)
  ext hw := (h'.ext hw).trans (h.ext hw)
  dt hw := (h'.dt hw).trans (h.dt hw)
  st hw := (h'.st hw).trans (h.st hw)
  wait hw := (h'.wait hw).trans (h.wait hw)
  halt hw := (h'.halt hw).trans (h.halt hw)
  bank hw := (h'.bank hw).trans (h.bank hw)
  acc := h'.acc.trans h.acc
  spk := h'.spk.trans h.spk
  keys := h'.keys.trans h.keys
  rnd := h'.rnd.trans h.rnd
  draws := h'.draws.trans h.draws
  phase := h'.phase.trans h.phase
  keyPoller := h'.keyPoller.trans h.keyPoller
  agenda := h'.agenda.trans h.agenda
  params := h'.params.trans h.params

/-! ## The operations -/

theorem setV (x : Reg) (b : Byte) (hw : writesReg i x = true) : WritesOnlyNamed i s (s.setV x b) where
  __ := refl i s
  reg k hk := State.getV_setV_other s x k b (by rintro rfl; simp [hw] at hk)

theorem setPc (a : Addr) (hw : writesPc i = true) : WritesOnlyNamed i s (s.setPc a) where
  __ := refl i s
  pc h := by simp [hw] at h

theorem setI (a : Addr) (hw : writesI i s.params = true) : WritesOnlyNamed i s (s.setI a) where
  __ := refl i s
  addr h := by simp [hw] at h

theorem writeByte (a : Addr) (b : Byte) (hw : writesMem i = true) : WritesOnlyNamed i s (s.writeByte a b) where
  __ := refl i s
  mem h := by simp [hw] at h

theorem setDisplay (d : Display) (hw : writesDisplay i = true) : WritesOnlyNamed i s (s.setDisplay d) where
  __ := refl i s
  display h := by simp [hw] at h

theorem setExt (b : Bool) (hw : writesExt i = true) : WritesOnlyNamed i s (s.setExt b) where
  __ := refl i s
  ext h := by simp [hw] at h

theorem setDt (b : Byte) (hw : writesDt i = true) : WritesOnlyNamed i s (s.setDt b) where
  __ := refl i s
  dt h := by simp [hw] at h

theorem setSt (b : Byte) (hw : writesSt i = true) : WritesOnlyNamed i s (s.setSt b) where
  __ := refl i s
  st h := by simp [hw] at h

theorem setWait (w : KeyWait) (hw : writesWait i = true) : WritesOnlyNamed i s (s.setWait w) where
  __ := refl i s
  wait h := by simp [hw] at h

theorem setHalt (hw : writesHalt i = true) : WritesOnlyNamed i s s.setHalt where
  __ := refl i s
  halt h := by simp [hw] at h

theorem setR (k : Fin 8) (b : Byte) (hw : writesBank i = true) : WritesOnlyNamed i s (s.setR k b) where
  __ := refl i s
  bank h := by simp [hw] at h

theorem setVThenFlag (x : Reg) (b : Byte) (flag : Bool) (hw : writesReg i x = true) (hf : writesReg i 15 = true) :
    WritesOnlyNamed i s (s.setVThenFlag x b flag) := by
  unfold State.setVThenFlag
  cases s.params.vfDestOrder with
  | flagWins => exact (setV x b hw).trans (setV 15 _ hf)
  | resultWins => exact (setV 15 _ hf).trans (setV x b hw)

theorem push (a : Addr) (hw : writesStack i = true) : WritesOnlyNamed i s (s.push a) := by
  by_cases hlt : s.sp.val < 16
  · rw [State.push_of_lt s a hlt]
    exact { refl i s with stack := fun h => by simp [hw] at h, sp := fun h => by simp [hw] at h }
  · rw [State.push_of_full s a hlt]
    exact refl i s

theorem popToPc (hw : writesStack i = true) (hpc : writesPc i = true) : WritesOnlyNamed i s s.popToPc := by
  by_cases hpos : 0 < s.sp.val
  · rw [State.popToPc_of_pos s hpos]
    exact { refl i s with sp := fun h => by simp [hw] at h, pc := fun h => by simp [hpc] at h }
  · rw [State.popToPc_of_empty s hpos]
    exact refl i s

theorem of_skipIf (c : Bool) (hw : writesPc i = true) (h : skipIf c s = .next t) : WritesOnlyNamed i s t := by
  rw [skipIf_eq] at h
  cases h
  exact setPc _ hw

theorem of_loopTo (m : Nat) (body : Nat → State → State)
    (hbody : ∀ k, k ≤ m → ∀ t, WritesOnlyNamed i t (body k t)) : WritesOnlyNamed i s (loopTo m body s) := by
  induction m with
  | zero => exact hbody 0 (Nat.le_refl 0) s
  | succ m ih => exact (ih fun k hk => hbody k (Nat.le_succ_of_le hk)).trans (hbody (m + 1) (Nat.le_refl _) _)

/-- `I` after a bulk move changes only where the parameter `I_INCREMENT` says so. -/
theorem of_afterBulk (x : Reg) (hw : s.params.iIncrement = .xPlusOne → writesI i s.params = true) :
    WritesOnlyNamed i s (afterBulk x s) := by
  unfold afterBulk
  split
  · exact refl i s
  · rename_i hinc
    exact setI _ (hw hinc)

end WritesOnlyNamed

open WritesOnlyNamed in
/-- Every instruction writes only what the rules name for it. -/
theorem exec_writesOnlyNamed (i : Instr) (s t : State) (h : exec i s = .next t) : WritesOnlyNamed i s t := by
  cases i with
  | cls | scd | scr | scl => cases h; exact setDisplay _ rfl
  | ret => cases h; exact popToPc rfl rfl
  | exit => cases h; exact setHalt rfl
  | low | high => cases h; exact setExt _ rfl
  | jp | jpV0 => cases h; exact setPc _ rfl
  | call nnn => cases h; exact (push _ rfl).trans (setPc _ rfl)
  | seImm | sneImm | seReg | sneReg | skp | sknp => exact of_skipIf _ rfl h
  | ldImm | addImm | ldReg | orReg | andReg | xorReg | rnd | ldFromDt =>
    cases h
    exact setV _ _ (by simp [writesReg])
  | addReg | subReg | shr | subn | shl =>
    cases h
    exact setVThenFlag _ _ _ (by simp [writesReg]) (by simp [writesReg])
  | ldI | addI | ldFont | ldHFont => cases h; exact setI _ rfl
  | drw => cases h; exact (setDisplay _ rfl).trans (setV 15 _ rfl)
  | ldKey => cases h; exact setWait _ rfl
  | ldDt => cases h; exact setDt _ rfl
  | ldSt => cases h; exact setSt _ rfl
  | bcd => cases h; exact ((writeByte _ _ rfl).trans (writeByte _ _ rfl)).trans (writeByte _ _ rfl)
  | storeRegs x =>
    cases h
    refine (of_loopTo _ _ fun k _ t => writeByte _ _ rfl).trans (of_afterBulk x fun hinc => ?_)
    simp [writesI, hinc]
  | loadRegs x =>
    cases h
    refine (of_loopTo _ _ fun k hk t => setV _ _ ?_).trans (of_afterBulk x fun hinc => ?_)
    · simp only [writesReg, decide_eq_true_eq, Fin.le_def]
      rw [regAt_val k (by omega)]
      exact hk
    · simp [writesI, hinc]
  | storeBank x => cases h; exact of_loopTo _ _ fun k _ t => setR _ _ rfl
  | loadBank x =>
    cases h
    refine of_loopTo _ _ fun k hk t => setV _ _ ?_
    simp only [bankTop] at hk
    simp only [writesReg, decide_eq_true_eq]
    rw [regAt_val k (by omega)]
    exact hk

/-- The same bytes are read from the same list of cells with the same parameters. -/
theorem State.sameMemory_of_mem (s t : State) (hmem : t.mem = s.mem) (hparams : t.params = s.params) :
    s.SameMemory t := fun a => by rw [State.readByte, State.readByte, hmem, hparams]

/-- Settles O13: clause by clause, from the frames of the operations an instruction is made of. -/
theorem onlyNamedInstructionsWrite : Obligations.OnlyNamedInstructionsWrite := by
  unfold Obligations.OnlyNamedInstructionsWrite
  intro i s t h
  have w := exec_writesOnlyNamed i s t h
  exact ⟨w.reg, fun hw => ⟨w.mem hw, s.sameMemory_of_mem t (w.mem hw) w.params⟩, w.pc, w.addr,
    fun hw => ⟨w.stack hw, w.sp hw⟩, w.display, w.ext, w.dt, w.st, w.wait, w.halt, w.bank, w.acc, w.spk, w.keys, w.rnd,
    w.draws, w.phase, w.keyPoller, w.agenda, w.params⟩

end Sys2Proof.Machine
end

section
/-! Keys (45_timers_keys.md R250 to R258): the key a register names, the lowest key down, and the instructions on keys
and the sound timer. -/

namespace Sys2Proof.Machine

/-- The low nibble of a byte as a number. -/
theorem toNat_and_lowNibble (b : Byte) : (b &&& 0x0F#8).toNat = b.toNat % 16 := by
  rw [BitVec.toNat_and]
  exact Nat.and_two_pow_sub_one_eq_mod b.toNat 4

/-- The key that a register names is the one of its low nibble (R253, D8). -/
theorem State.keyOf_eq (s : State) (x : Reg) : s.keyOf x = s.keys.getLsbD ((s.getV x).toNat % 16) := by
  rw [State.keyOf, State.keyDown, toNat_and_lowNibble]

/-- Which key the service finds (R252). -/
theorem State.firstKey_eq_some (s : State) (k : Nat) (hk : k < 16) (hdown : s.keys.getLsbD k = true)
    (hlower : ∀ j, j < k → s.keys.getLsbD j = false) : s.firstKey = some k := by
  refine List.find?_range_eq_some.2 ⟨hdown, List.mem_range.2 hk, fun j hj => ?_⟩
  simp [State.keyDown, hlower j hj]

theorem State.firstKey_eq_none (s : State) (hup : ∀ k, k < 16 → s.keys.getLsbD k = false) : s.firstKey = none := by
  refine List.find?_eq_none.2 fun k hk => ?_
  simp [State.keyDown, hup k (List.mem_range.1 hk)]

/-- Settles O40: both are skips on the level of the key that `Vx` names. -/
theorem keySkipsReadSampledLevel : Obligations.KeySkipsReadSampledLevel := by
  unfold Obligations.KeySkipsReadSampledLevel
  intro x s
  rw [exec_skp, exec_sknp, ← State.keyOf_eq]
  refine ⟨skipIf_onlyPc (s.keyOf x) s, ?_⟩
  simpa only [Bool.not_eq_true', ← Bool.not_eq_true, ite_not] using skipIf_onlyPc (!s.keyOf x) s

/-- Settles O42: `Fx18` answers `setSt`, `Fx0A` answers `setWait`. -/
theorem soundTimerAndKeyWaitEntry : Obligations.SoundTimerAndKeyWaitEntry := by
  unfold Obligations.SoundTimerAndKeyWaitEntry
  intro x s
  exact ⟨⟨_, exec_ldSt x s, s.setSt_st _, rfl, s.setSt_readByte _⟩,
    ⟨_, exec_ldKey x s, s.setWait_wait _, rfl, s.setWait_readByte _⟩⟩

end Sys2Proof.Machine
end

section
/-! The step (40_step.md R100 to R108): what a `step` answers in each state, and where it leaves `pc` and the ports. -/

namespace Sys2Proof.Machine

/-! ## The sampled state (R250) -/

/-- Sampling changes the ports, the counter of free samples and the boot phase only. -/
theorem sampled_frame (inputs : Option (Keys × Byte)) (s : State) :
    sampled inputs s = { s with
      keys := (sampled inputs s).keys, rnd := (sampled inputs s).rnd, draws := (sampled inputs s).draws,
      phase := .started } := by
  rw [sampled, State.sample_frame]

@[simp] theorem sampled_halt (inputs : Option (Keys × Byte)) (s : State) : (sampled inputs s).halt = s.halt := by
  rw [sampled_frame]

@[simp] theorem sampled_wait (inputs : Option (Keys × Byte)) (s : State) : (sampled inputs s).wait = s.wait := by
  rw [sampled_frame]

@[simp] theorem sampled_params (inputs : Option (Keys × Byte)) (s : State) : (sampled inputs s).params = s.params := by
  rw [sampled_frame]

@[simp] theorem sampled_pc (inputs : Option (Keys × Byte)) (s : State) : (sampled inputs s).pc = s.pc := by
  rw [sampled_frame]

@[simp] theorem sampled_getV (inputs : Option (Keys × Byte)) (s : State) (x : Reg) :
    (sampled inputs s).getV x = s.getV x := by
  rw [sampled_frame]; rfl

@[simp] theorem sampled_readByte (inputs : Option (Keys × Byte)) (s : State) (a : Addr) :
    (sampled inputs s).readByte a = s.readByte a := by
  rw [sampled_frame]; rfl

@[simp] theorem wordAtPc_sampled (inputs : Option (Keys × Byte)) (s : State) :
    wordAtPc (sampled inputs s) = wordAtPc s := by
  simp [wordAtPc]

/-! ## What a step answers -/

/-- The word at `pc` is what is fetched and decoded (R103). -/
theorem decodeBytes_fetchBytes (s : State) : decodeBytes s.fetchBytes.1 s.fetchBytes.2 = decode (wordAtPc s) := rfl

theorem runWord_of_instr (s : State) (i : Instr) (h : decode (wordAtPc s) = .instr i) :
    runWord s = exec i s.advancePc := by
  rw [runWord, decodeBytes_fetchBytes, h]

theorem runWord_of_noOp (s : State) (h : decode (wordAtPc s) = .noOp) : runWord s = .next s.advancePc := by
  rw [runWord, decodeBytes_fetchBytes, h]

theorem stepTransaction_of_beforeInit (inputs : Option (Keys × Byte)) (s : State) (h : s.phase = .beforeInit) :
    stepTransaction inputs s = .refused .beforeInit := by
  rw [stepTransaction, if_pos h]

theorem stepTransaction_of_noPoller (inputs : Option (Keys × Byte)) (s : State) (hphase : s.phase ≠ .beforeInit)
    (h : s.keyPoller = false) : stepTransaction inputs s = .refused .noKeyPoller := by
  rw [stepTransaction, if_neg hphase, if_pos h]

theorem stepTransaction_of_fetches (inputs : Option (Keys × Byte)) (s : State) (h : fetches s) :
    stepTransaction inputs s = runWord (sampled inputs s) := by
  obtain ⟨hphase, hpoller, hhalt, hwait⟩ := h
  have hwait' : (sampled inputs s).wait = .running := (sampled_wait inputs s).trans hwait
  simp only [sampled] at hwait'
  simp [stepTransaction, runStep, hphase, hpoller, hhalt, hwait', sampled]

theorem stepTransaction_of_polls (inputs : Option (Keys × Byte)) (r : Reg) (s : State) (h : polls r s) :
    stepTransaction inputs s = .next (keyWaitService r (sampled inputs s)) := by
  obtain ⟨hphase, hpoller, hhalt, hwait⟩ := h
  have hwait' : (sampled inputs s).wait = .waiting r := (sampled_wait inputs s).trans hwait
  simp only [sampled] at hwait'
  simp [stepTransaction, runStep, hphase, hpoller, hhalt, hwait', sampled]

/-- A step that is not refused is halted, polls or fetches (R100 to R102). -/
theorem halted_or_polls_or_fetches (s : State) (hphase : s.phase ≠ .beforeInit) (hpoller : s.keyPoller = true) :
    s.halt = true ∨ (∃ r, polls r s) ∨ fetches s := by
  cases hhalt : s.halt with
  | true => exact .inl rfl
  | false =>
    cases hwait : s.wait with
    | waiting r => exact .inr (.inl ⟨r, hphase, hpoller, hhalt, hwait⟩)
    | running => exact .inr (.inr ⟨hphase, hpoller, hhalt, hwait⟩)

/-- A fetched word is run, whatever it is. -/
theorem exists_runWord_eq_next (s : State) : ∃ t, runWord s = .next t := by
  cases hd : decode (wordAtPc s) with
  | instr i => rw [runWord_of_instr s i hd]; exact exists_exec_eq_next i _
  | noOp => exact ⟨_, runWord_of_noOp s hd⟩

/-! ## The obligations on one step -/

/-- Settles O55: by the agenda. -/
theorem agendaIsPerformedInOrder : Obligations.AgendaIsPerformedInOrder := by
  unfold Obligations.AgendaIsPerformedInOrder
  intro s
  constructor
  · intro t rest h
    rw [step, nextTransaction, h]
  · intro h
    rw [step, nextTransaction, h]

/-- Settles O6: the sampled state fetches the word that stands at `pc`. -/
theorem stepRunsDecodedInstruction : Obligations.StepRunsDecodedInstruction := by
  unfold Obligations.StepRunsDecodedInstruction
  intro s s0 inputs i hinvokes hfetches _ hdecode
  rw [step_of_invokesStep s s0 inputs hinvokes, stepTransaction_of_fetches inputs s0 hfetches,
    runWord_of_instr _ i (by rw [wordAtPc_sampled, hdecode]), State.advancePc, State.setPc, sampled_pc]

/-- Settles O7: the same with a word that is no instruction. -/
theorem stepRunsNoOp : Obligations.StepRunsNoOp := by
  unfold Obligations.StepRunsNoOp
  intro s s0 inputs hinvokes hfetches hdecode
  rw [step_of_invokesStep s s0 inputs hinvokes, stepTransaction_of_fetches inputs s0 hfetches,
    runWord_of_noOp _ (by rw [wordAtPc_sampled, hdecode]), State.advancePc, State.setPc, sampled_pc]

/-- Settles O10: a waiting step is the service, which finds the lowest key down. -/
theorem waitingStepPollsKeys : Obligations.WaitingStepPollsKeys := by
  unfold Obligations.WaitingStepPollsKeys
  intro s s0 inputs r hinvokes hpolls
  rw [step_of_invokesStep s s0 inputs hinvokes, stepTransaction_of_polls inputs r s0 hpolls]
  constructor
  · intro k hk hdown hlower
    rw [keyWaitService_some r _ k (State.firstKey_eq_some _ k hk hdown hlower)]
    refine ⟨_, rfl, rfl, State.getV_setV_same _ r _, fun x hx => ?_⟩
    rw [State.setWait_getV, State.getV_setV_other _ r x _ hx, sampled_getV]
  · intro hup
    rw [keyWaitService_none r _ (State.firstKey_eq_none _ hup)]

/-- Settles O12: no instruction is refused, so neither is a fetched word, a poll or a halted step. -/
theorem nothingIsRaised : Obligations.NothingIsRaised := by
  unfold Obligations.NothingIsRaised
  refine ⟨exists_exec_eq_next, fun s s0 inputs hinvokes hphase hpoller => ?_⟩
  rw [step_of_invokesStep s s0 inputs hinvokes]
  obtain hhalt | ⟨r, hpolls⟩ | hfetches := halted_or_polls_or_fetches s0 hphase hpoller
  · exact ⟨_, stepTransaction_of_halted inputs s0 hphase hpoller hhalt⟩
  · exact ⟨_, stepTransaction_of_polls inputs r s0 hpolls⟩
  · rw [stepTransaction_of_fetches inputs s0 hfetches]
    exact exists_runWord_eq_next _

/-! ## The placed instruction (log entry 11) -/

/-- A 16-bit word of the opcode table is the word itself. -/
theorem tableWord_toNat (w : Word) : tableWord 16 w.toNat = w := by
  rw [tableWord, Nat.mod_eq_of_lt w.isLt, BitVec.ofNat_toNat, BitVec.setWidth_eq]

/-- The two bytes stored at `pc` are the word fetched there, also where the second address wraps (R53). -/
theorem wordAtPc_storeAtPc (s : State) (hi lo : Byte) : wordAtPc (s.storeAtPc hi lo) = wordOfBytes hi lo := by
  simp [wordAtPc, State.storeAtPc, State.readByte_writeByte]

/-- A byte at neither of the two addresses is as before. -/
theorem readByte_storeAtPc_other (s : State) (hi lo : Byte) (a : Addr) (h : a ≠ s.pc) (h' : a ≠ s.pc + 1) :
    (s.storeAtPc hi lo).readByte a = s.readByte a := by
  rw [State.storeAtPc, State.readByte_writeByte, if_neg h', State.readByte_writeByte, if_neg h]

/-- A placed word is fetched by the next step, and nothing of the boot order stands before it. -/
theorem fetches_placeWord (s : State) (w : Word) : fetches (placeWord s w) := by
  refine ⟨?_, rfl, rfl, rfl⟩
  change (if s.phase = .beforeInit then Phase.loadable else s.phase) ≠ .beforeInit
  split_ifs with h
  · decide
  · exact h

/-- Settles O8: the placed word is the one fetched, and it decodes to the instruction it encodes. -/
theorem placedInstructionRuns : Obligations.PlacedInstructionRuns := by
  unfold Obligations.PlacedInstructionRuns
  intro s i hagenda
  rw [State.withFetchWord, tableWord_toNat]
  have hempty : (placeWord s (encode i)).agenda = [] := by
    change s.agenda.dropWhile (fun t => !isStep t) = []
    rw [hagenda, List.dropWhile_nil]
  have hword : wordAtPc (placeWord s (encode i)) = encode i := by
    rw [placeWord, wordAtPc_storeAtPc, wordOfBytes_bytes]
  have hdecode : decode (wordAtPc (placeWord s (encode i))) = .instr i := by
    rw [hword]
    exact decodeInvertsEncode i rfl
  refine ⟨_, stepRunsDecodedInstruction _ _ none i (.inl ⟨hempty, rfl, rfl⟩) (fetches_placeWord s _) rfl hdecode,
    rfl, rfl, rfl, rfl, rfl, rfl, rfl, rfl, rfl, rfl, rfl, rfl, rfl, rfl, rfl, rfl, rfl, fun a ha ha' => ?_⟩
  exact readByte_storeAtPc_other (readyToFetch s) _ _ a ha ha'

/-! ## Where a step leaves `pc` (R108, R128) -/

/-- A skip from the pre-advanced state. -/
theorem skipIf_pc (c : Bool) (condition : Prop) (s t : State) (hc : c = true ↔ condition)
    (h : skipIf c s.advancePc = .next t) : (condition → t.pc = s.pc + 4) ∧ (¬ condition → t.pc = s.pc + 2) := by
  rw [skipIf_eq] at h
  cases h
  rw [← hc]
  cases c with
  | true => exact ⟨fun _ => BitVec.add_assoc s.pc 2 2, fun hn => absurd rfl hn⟩
  | false => exact ⟨nofun, fun _ => rfl⟩

/-- The `pc` that an instruction leaves: by the instructions that write `pc`; every other leaves the pre-advance. -/
theorem exec_pcOutcome (i : Instr) (s t : State) (h : exec i s.advancePc = .next t) : pcOutcome i s s.pc t.pc := by
  have w := exec_writesOnlyNamed i _ t h
  cases i with
  | jp nnn | call nnn => cases h; rfl
  | jpV0 nnn => cases h; exact BitVec.toNat_ofNat _ _
  | ret =>
    cases h
    rw [pcOutcome]
    split_ifs with hpos
    · rw [State.popToPc_of_pos s.advancePc hpos]; rfl
    · rw [State.popToPc_of_empty s.advancePc hpos]; rfl
  | seImm x kk => exact skipIf_pc _ _ s t beq_iff_eq h
  | sneImm x kk => exact skipIf_pc _ _ s t bne_iff_ne h
  | seReg x y => exact skipIf_pc _ _ s t beq_iff_eq h
  | sneReg x y => exact skipIf_pc _ _ s t bne_iff_ne h
  | skp x => exact skipIf_pc _ _ s t (by rw [State.keyOf_eq]; rfl) h
  | sknp x => exact skipIf_pc _ _ s t (by rw [State.keyOf_eq, Bool.not_eq_true']; rfl) h
  | _ => exact w.pc rfl

theorem keyWaitService_pc (r : Reg) (s : State) : (keyWaitService r s).pc = s.pc := by
  rw [keyWaitService_frame]

/-- Settles O11: by what the step did. -/
theorem pcOutcomesOfAStep : Obligations.PcOutcomesOfAStep := by
  unfold Obligations.PcOutcomesOfAStep
  intro s s0 t inputs hinvokes h
  rw [step_of_invokesStep s s0 inputs hinvokes] at h
  obtain ⟨-, -, ⟨hhalt, rfl⟩ | ⟨hhalt, r, hwait, rfl⟩ | ⟨hhalt, hwait, hrun⟩⟩ := stepTransaction_cases inputs s0 t h
  · exact ⟨fun _ => rfl, fun hrunning => by simp [hhalt] at hrunning⟩
  · refine ⟨fun _ => by rw [keyWaitService_pc, sampled_pc], fun _ hrunning => ?_⟩
    cases hwait.symm.trans hrunning
  · refine ⟨fun hidle => by simp [hhalt, hwait] at hidle, fun _ _ => ?_⟩
    rw [← wordAtPc_sampled inputs, ← sampled_pc inputs]
    cases hd : decode (wordAtPc (sampled inputs s0)) with
    | instr i =>
      rw [runWord_of_instr _ i hd] at hrun
      exact exec_pcOutcome i _ t hrun
    | noOp =>
      rw [runWord_of_noOp _ hd] at hrun
      cases hrun
      rfl

/-! ## What a step leaves in the ports (R250, R290) -/

/-- After its start a step changes none of the ports, the counter, the boot phase, the poller and the agenda. -/
theorem stepTransaction_ports (inputs : Option (Keys × Byte)) (s t : State) (hhalt : s.halt = false)
    (h : stepTransaction inputs s = .next t) :
    t.keys = (sampled inputs s).keys ∧ t.rnd = (sampled inputs s).rnd ∧ t.draws = (sampled inputs s).draws ∧
      t.phase = (sampled inputs s).phase ∧ t.keyPoller = (sampled inputs s).keyPoller ∧
      t.agenda = (sampled inputs s).agenda := by
  obtain ⟨-, -, ⟨hhalt', -⟩ | ⟨-, r, -, rfl⟩ | ⟨-, -, hrun⟩⟩ := stepTransaction_cases inputs s t h
  · cases hhalt.symm.trans hhalt'
  · rw [keyWaitService_frame]
    exact ⟨rfl, rfl, rfl, rfl, rfl, rfl⟩
  · obtain ⟨i, -, hexec⟩ | ⟨-, rfl⟩ := runWord_cases _ t hrun
    · have w := exec_writesOnlyNamed i _ t hexec
      exact ⟨w.keys, w.rnd, w.draws, w.phase, w.keyPoller, w.agenda⟩
    · exact ⟨rfl, rfl, rfl, rfl, rfl, rfl⟩

/-- Settles O54: a halted step stands still, any other keeps what it sampled. -/
theorem stepSamplesPorts : Obligations.StepSamplesPorts := by
  unfold Obligations.StepSamplesPorts
  refine ⟨fun inputs s t h => ⟨fun hhalt => eq_of_stepTransaction_of_halted inputs s t hhalt h, fun hhalt => ?_⟩,
    fun s levels random => ⟨rfl, rfl⟩⟩
  obtain ⟨hkeys, hrnd, hdraws, hphase, hpoller, hagenda⟩ := stepTransaction_ports inputs s t hhalt h
  cases inputs with
  | some ports => exact ⟨hphase, hpoller, hagenda, hkeys, hrnd, hdraws⟩
  | none => exact ⟨hphase, hpoller, hagenda, hkeys, hrnd, hdraws⟩

end Sys2Proof.Machine
end

section
/-! The invariant (10_state.md R21, R31, 60_exceptions.md R283, R288): every transaction keeps it. -/

namespace Sys2Proof.Machine

/-! ## Instructions -/

/-- An instruction keeps the canonical form of memory: `Fx33` and `Fx55` write byte by byte, no other writes. -/
theorem exec_keeps_mem_wf (i : Instr) (s t : State) (hs : Memory.wf s.params.extFontBase s.mem)
    (h : exec i s = .next t) : Memory.wf t.params.extFontBase t.mem := by
  have w := exec_writesOnlyNamed i s t h
  cases i with
  | bcd x =>
    cases h
    exact State.wf_writeByte _ _ _ (State.wf_writeByte _ _ _ (State.wf_writeByte _ _ _ hs))
  | storeRegs x =>
    cases h
    rw [afterBulk_frame]
    exact loopTo_keeps (P := fun t => Memory.wf t.params.extFontBase t.mem) _ _ s
      (fun k t ht => State.wf_writeByte t _ _ ht) hs
  | _ => rw [w.mem rfl, w.params]; exact hs

/-- An instruction keeps the canonical form of the display: a clear, a scroll and a sprite do, no other writes it. -/
theorem exec_keeps_display_wf (i : Instr) (s t : State) (hs : Display.wf s.display) (h : exec i s = .next t) :
    Display.wf t.display := by
  have w := exec_writesOnlyNamed i s t h
  cases i with
  | cls => cases h; exact reset_display_wf
  | scd n => cases h; exact Display.wf_scrollDown _ _ _ hs
  | scr => cases h; exact Display.wf_scrollRight _ _ hs
  | scl => cases h; exact Display.wf_scrollLeft _ _ hs
  | drw x y n => cases h; exact drawSprite_wf s _ _ _ hs
  | _ => rw [w.display rfl]; exact hs

/-- No instruction both halts and waits. -/
theorem writesWait_of_writesHalt (i : Instr) (h : writesHalt i = true) : writesWait i = false := by
  cases i with
  | exit => rfl
  | _ => cases h

/-- An instruction run by a machine that runs does not leave it halted and waiting at once (R283). -/
theorem exec_keeps_idle (i : Instr) (s t : State) (hhalt : s.halt = false) (hwait : s.wait = .running)
    (h : exec i s = .next t) : ¬ (t.halt = true ∧ t.wait ≠ .running) := by
  have w := exec_writesOnlyNamed i s t h
  rintro ⟨hhalt', hwait'⟩
  cases hw : writesHalt i with
  | true => exact hwait' ((w.wait (writesWait_of_writesHalt i hw)).trans hwait)
  | false => simp [w.halt hw, hhalt] at hhalt'

theorem exec_keeps_inv (i : Instr) (s t : State) (hs : s.Inv) (hhalt : s.halt = false) (hwait : s.wait = .running)
    (h : exec i s = .next t) : t.Inv where
  mem := exec_keeps_mem_wf i s t hs.mem h
  display := exec_keeps_display_wf i s t hs.display h
  quantum := (exec_writesOnlyNamed i s t h).params ▸ hs.quantum
  acc := by
    have w := exec_writesOnlyNamed i s t h
    rw [w.acc, w.params]
    exact hs.acc
  idle := exec_keeps_idle i s t hhalt hwait h

/-! ## Steps -/

/-- Sampling the ports changes nothing that the invariant speaks of. -/
theorem sampled_inv (inputs : Option (Keys × Byte)) (s : State) (hs : s.Inv) : (sampled inputs s).Inv := by
  rw [sampled, State.sample_frame]
  exact { hs with }

/-- A poll keeps the invariant: it can only end the wait. -/
theorem keyWaitService_inv (r : Reg) (s : State) (hs : s.Inv) (hhalt : s.halt = false) : (keyWaitService r s).Inv := by
  rw [keyWaitService_frame]
  exact { hs with idle := fun h => by simp [hhalt] at h }

theorem advancePc_inv (s : State) (hs : s.Inv) : s.advancePc.Inv := { hs with }

/-- A `step` keeps the invariant and the parameters. -/
theorem stepTransaction_keeps_inv (inputs : Option (Keys × Byte)) (s t : State) (hs : s.Inv)
    (h : stepTransaction inputs s = .next t) : t.Inv ∧ t.params = s.params := by
  have hs' := sampled_inv inputs s hs
  have hparams := sampled_params inputs s
  obtain ⟨-, -, ⟨-, rfl⟩ | ⟨hhalt, r, -, rfl⟩ | ⟨hhalt, hwait, hrun⟩⟩ := stepTransaction_cases inputs s t h
  · exact ⟨hs, rfl⟩
  · refine ⟨keyWaitService_inv r _ hs' (by rw [sampled_halt, hhalt]), ?_⟩
    rw [keyWaitService_frame, ← hparams]
  · rw [← sampled_halt inputs] at hhalt
    rw [← sampled_wait inputs] at hwait
    obtain ⟨i, -, hexec⟩ | ⟨-, rfl⟩ := runWord_cases _ t hrun
    · exact ⟨exec_keeps_inv i _ t (advancePc_inv _ hs') hhalt hwait hexec,
        (exec_writesOnlyNamed i _ t hexec).params.trans hparams⟩
    · exact ⟨advancePc_inv _ hs', hparams⟩

/-! ## Transactions -/

/-- `init` gives a state with the invariant under any parameters with a positive quantum. -/
theorem initMachine_inv (s : State) (hquantum : 0 < s.params.quantumNum ∧ 0 < s.params.quantumDen) :
    (initMachine s).Inv where
  mem := ⟨List.Pairwise.nil, nofun⟩
  display := ⟨List.Pairwise.nil, nofun⟩
  quantum := hquantum
  acc := Nat.zero_le _
  idle := fun h => nomatch h.1

/-- A `load` keeps the invariant: it writes byte by byte. -/
theorem writeBytes_inv (s : State) (a : Addr) (bytes : List Byte) (hs : s.Inv) : (s.writeBytes a bytes).Inv := by
  have hwf := State.wf_writeBytes s a bytes hs.mem
  rw [State.writeBytes_frame]
  exact { hs with mem := hwf }

/-- `update_time` keeps the invariant: it leaves at most one quantum in the accumulator. -/
theorem updateTime_inv (d : Nat) (s : State) (hs : s.Inv) : (updateTime d s).Inv := by
  have hacc := updateTime_acc d s hs.quantum.1
  rw [updateTime_frame]
  exact { hs with acc := hacc }

/-- Every transaction keeps the invariant and the parameters. -/
theorem transact_keeps_inv (t : Transaction) (s u : State) (hs : s.Inv) (h : transact t s = .next u) :
    u.Inv ∧ u.params = s.params := by
  obtain rfl | ⟨bytes, -, -, rfl⟩ | ⟨inputs, hstep⟩ | ⟨d, rfl⟩ | rfl | rfl := transact_cases t s u h
  · exact ⟨initMachine_inv s hs.quantum, rfl⟩
  · exact ⟨writeBytes_inv s _ bytes hs, by rw [State.writeBytes_frame]⟩
  · exact stepTransaction_keeps_inv inputs s u hs hstep
  · exact ⟨updateTime_inv d s hs, by rw [updateTime_frame]⟩
  · exact ⟨{ hs with }, rfl⟩
  · exact ⟨hs, rfl⟩

/-! ## The obligations -/

/-- Settles O51: an `init` in the reset state gives the reset state, whose quantum is positive. -/
theorem invariantAtReset : Obligations.InvariantAtReset := by
  unfold Obligations.InvariantAtReset
  exact initMachine_inv State.reset (by decide)

/-- Settles O52: the machine's step is a transaction from a state with another agenda, and each transaction keeps the
invariant. -/
theorem everyStepKeepsInvariant : Obligations.EveryStepKeepsInvariant := by
  unfold Obligations.EveryStepKeepsInvariant
  intro s t hs h
  obtain ⟨tr, s0, hs0, htr⟩ := step_cases s t h
  have hinv : s0.Inv := by rw [hs0]; exact { hs with }
  have hparams : s0.params = s.params := by rw [hs0]
  rw [← hparams]
  exact transact_keeps_inv tr s0 t hinv htr

end Sys2Proof.Machine
end

section
/-! The timer engine (60_exceptions.md R286 to R289): what the countdown loop does not look at, its closed form, and
time cut into pieces. -/

namespace Sys2Proof.Machine

/-! ## What the engine does not look at (R289) -/

/-- A change of the state that the loop's rounds commute with and that leaves the accumulator and the parameters
commutes with `update_time`. -/
theorem updateTime_commutes (f : State → State) (hacc : ∀ s, (f s).acc = s.acc)
    (hparams : ∀ s, (f s).params = s.params) (hset : ∀ s a, { f s with acc := a } = f { s with acc := a })
    (htick : ∀ s, tick (f s) = f (tick s)) (d : Nat) (s : State) : updateTime d (f s) = f (updateTime d s) := by
  have hloop : ∀ fuel s, tickLoop fuel (f s) = f (tickLoop fuel s) := by
    intro fuel
    induction fuel with
    | zero => intro s; rfl
    | succ rounds ih =>
      intro s
      by_cases hq : s.acc > s.params.quantumNum
      · rw [tickLoop_go rounds s hq, tickLoop_go rounds (f s) (by rw [hacc, hparams]; exact hq), hset, htick, ih,
          hacc, hparams]
      · rw [tickLoop_stop _ s hq, tickLoop_stop _ (f s) (by rw [hacc, hparams]; exact hq)]
  rw [updateTime, hset, hacc, hparams, hloop, updateTime]

/-- The state halted or not, and waiting or not. -/
def State.withStepState (halted : Bool) (w : KeyWait) (s : State) : State := { s with halt := halted, wait := w }

theorem updateTime_withStepState (halted : Bool) (w : KeyWait) (d : Nat) (s : State) :
    updateTime d (s.withStepState halted w) = (updateTime d s).withStepState halted w :=
  updateTime_commutes (State.withStepState halted w) (fun _ => rfl) (fun _ => rfl) (fun _ _ => rfl) (fun _ => rfl) d s

/-- After an `init` the transaction completes, whatever else the state is (R289). -/
theorem transact_updateTime (d : Nat) (s : State) (hphase : s.phase ≠ .beforeInit) :
    transact (.updateTime d) s = .next (updateTime d s) := by
  rw [transact, afterInit, if_neg hphase]

/-- Only `Fx15` writes `DT`, only `Fx18` writes `ST`. -/
theorem writesDt_eq_false (i : Instr) (h : ∀ x, i ≠ .ldDt x) : writesDt i = false := by
  cases i with
  | ldDt x => exact absurd rfl (h x)
  | _ => rfl

theorem writesSt_eq_false (i : Instr) (h : ∀ x, i ≠ .ldSt x) : writesSt i = false := by
  cases i with
  | ldSt x => exact absurd rfl (h x)
  | _ => rfl

/-- No step touches the accumulator or the speaker, and a step writes a timer only by the instruction at `pc`. -/
theorem stepTransaction_timers (inputs : Option (Keys × Byte)) (s t : State) (h : stepTransaction inputs s = .next t) :
    t.acc = s.acc ∧ t.spk = s.spk ∧ ((∀ x, decode (wordAtPc s) ≠ .instr (.ldDt x)) → t.dt = s.dt) ∧
      ((∀ x, decode (wordAtPc s) ≠ .instr (.ldSt x)) → t.st = s.st) := by
  have hstart : (sampled inputs s).acc = s.acc ∧ (sampled inputs s).spk = s.spk ∧ (sampled inputs s).dt = s.dt ∧
      (sampled inputs s).st = s.st := by
    rw [sampled_frame]
    exact ⟨rfl, rfl, rfl, rfl⟩
  obtain ⟨hacc, hspk, hdt, hst⟩ := hstart
  obtain ⟨-, -, ⟨-, rfl⟩ | ⟨-, r, -, rfl⟩ | ⟨-, -, hrun⟩⟩ := stepTransaction_cases inputs s t h
  · exact ⟨rfl, rfl, fun _ => rfl, fun _ => rfl⟩
  · rw [keyWaitService_frame]
    exact ⟨hacc, hspk, fun _ => hdt, fun _ => hst⟩
  · obtain ⟨i, hdecode, hexec⟩ | ⟨-, rfl⟩ := runWord_cases _ t hrun
    · have w := exec_writesOnlyNamed i _ t hexec
      rw [decodeBytes_fetchBytes, wordAtPc_sampled] at hdecode
      rw [hdecode]
      refine ⟨w.acc.trans hacc, w.spk.trans hspk, fun hne => ?_, fun hne => ?_⟩
      · exact (w.dt (writesDt_eq_false i fun x hx => hne x (hx ▸ rfl))).trans hdt
      · exact (w.st (writesSt_eq_false i fun x hx => hne x (hx ▸ rfl))).trans hst
    · exact ⟨hacc, hspk, fun _ => hdt, fun _ => hst⟩

/-- Settles O45: the engine commutes with a change of `HALT` and `WAIT`, and no instruction but the two writes what it
counts. -/
theorem timersRunInEveryStepState : Obligations.TimersRunInEveryStepState := by
  unfold Obligations.TimersRunInEveryStepState
  refine ⟨fun d s halted w => ⟨updateTime_withStepState halted w d s, fun hphase => ?_⟩, stepTransaction_timers⟩
  exact (transact_updateTime d (s.withStepState halted w) hphase).trans
    (congrArg Host.Outcome.next (updateTime_withStepState halted w d s))

/-! ## The closed form (R288) -/

/-- How many rounds the loop runs from an accumulator `a` with the quantum `q`. -/
def tickCount (q a : Nat) : Nat := (a - 1) / q

theorem tickCount_of_le (q a : Nat) (hq : 0 < q) (h : a ≤ q) : tickCount q a = 0 :=
  Nat.div_eq_of_lt (by omega)

theorem tickCount_of_gt (q a : Nat) (hq : 0 < q) (h : a > q) : tickCount q a = tickCount q (a - q) + 1 := by
  rw [tickCount, Nat.div_eq, if_pos ⟨hq, by omega⟩, tickCount, Nat.sub_right_comm]

/-- `t` is `s` after the rounds that the loop runs from the accumulator `a`. -/
def Ticked (a : Nat) (s t : State) : Prop :=
  t.acc = a - s.params.quantumNum * tickCount s.params.quantumNum a ∧
  t.dt.toNat = s.dt.toNat - tickCount s.params.quantumNum a ∧
  t.st.toNat = s.st.toNat - tickCount s.params.quantumNum a ∧
  t.spk = if tickCount s.params.quantumNum a = 0 then s.spk else decide (t.st.toNat > 0)

theorem tickLoop_ticked (fuel : Nat) (s : State) (hq : 0 < s.params.quantumNum) (hfuel : s.acc ≤ fuel) :
    Ticked s.acc s (tickLoop fuel s) := by
  induction fuel generalizing s with
  | zero =>
    have hk := tickCount_of_le s.params.quantumNum s.acc hq (by omega)
    simp [Ticked, hk, tickLoop]
  | succ rounds ih =>
    by_cases hgt : s.acc > s.params.quantumNum
    · obtain ⟨hacc, hdt, hst, hspk⟩ := ih (tick { s with acc := s.acc - s.params.quantumNum }) hq
        (by simp only [tick]; omega)
      have hk := tickCount_of_gt s.params.quantumNum s.acc hq hgt
      rw [tickLoop_go rounds s hgt, Ticked, hk]
      simp only [tick, countDown_toNat] at hacc hdt hst hspk ⊢
      refine ⟨?_, ?_, ?_, ?_⟩
      · rw [hacc, Nat.mul_succ]; omega
      · rw [hdt]; omega
      · rw [hst]; omega
      · rw [if_neg (Nat.succ_ne_zero _), hspk]
        split_ifs with hzero
        · rw [hst, hzero]; rfl
        · rfl
    · have hk := tickCount_of_le s.params.quantumNum s.acc hq (by omega)
      rw [tickLoop_stop _ s hgt]
      simp [Ticked, hk]

/-- One `update_time`, in closed form. -/
theorem updateTime_ticked (d : Nat) (s : State) (hq : 0 < s.params.quantumNum) :
    Ticked (s.acc + s.params.quantumDen * d) s (updateTime d s) :=
  tickLoop_ticked _ { s with acc := s.acc + s.params.quantumDen * d } hq (Nat.le_refl _)

theorem updateTime_params (d : Nat) (s : State) : (updateTime d s).params = s.params := by
  rw [updateTime_frame]

/-! ## Time cut into pieces -/

/-- Two states that come from one by a change of the timers, the speaker and the accumulator are equal if these are. -/
theorem eq_of_timerFrames (s t u : State)
    (ht : t = { s with dt := t.dt, st := t.st, spk := t.spk, acc := t.acc })
    (hu : u = { s with dt := u.dt, st := u.st, spk := u.spk, acc := u.acc })
    (hdt : t.dt.toNat = u.dt.toNat) (hst : t.st.toNat = u.st.toNat) (hspk : t.spk = u.spk) (hacc : t.acc = u.acc) :
    t = u := by
  rw [ht, hu, BitVec.eq_of_toNat_eq hdt, BitVec.eq_of_toNat_eq hst, hspk, hacc]

/-- The rounds of two pieces of time are those of the whole: `a` units, then `e` more on what the rounds left. -/
theorem tickCount_add (q a e : Nat) (hq : 0 < q) :
    tickCount q (a + e) = tickCount q a + tickCount q (a - q * tickCount q a + e) := by
  rcases Nat.eq_zero_or_pos a with rfl | ha
  · simp [tickCount]
  · have hle : q * tickCount q a ≤ a - 1 := Nat.mul_div_le _ _
    have hsum : a + e - 1 = a - q * tickCount q a + e - 1 + q * tickCount q a := by omega
    rw [tickCount, hsum, Nat.add_mul_div_left _ _ hq, Nat.add_comm]
    rfl

/-- The rounds take no more than there is. -/
theorem mul_tickCount_le (q a : Nat) : q * tickCount q a ≤ a :=
  (Nat.mul_div_le (a - 1) q).trans (Nat.sub_le a 1)

/-- Two pieces of time are as good as one: the rounds add up, and the speaker is set by the last of them. -/
theorem updateTime_updateTime (d e : Nat) (s : State) (hq : 0 < s.params.quantumNum) :
    updateTime e (updateTime d s) = updateTime (d + e) s := by
  have hparams := updateTime_params d s
  obtain ⟨hacc, hdt, hst, hspk⟩ := updateTime_ticked d s hq
  obtain ⟨hacc', hdt', hst', hspk'⟩ := updateTime_ticked e (updateTime d s) (by rw [hparams]; exact hq)
  obtain ⟨hacc'', hdt'', hst'', hspk''⟩ := updateTime_ticked (d + e) s hq
  have hk := tickCount_add s.params.quantumNum (s.acc + s.params.quantumDen * d) (s.params.quantumDen * e) hq
  have hle := mul_tickCount_le s.params.quantumNum (s.acc + s.params.quantumDen * d)
  rw [hparams, hacc] at hacc' hdt' hst' hspk'
  rw [Nat.mul_add, ← Nat.add_assoc, hk] at hacc'' hdt'' hst'' hspk''
  generalize tickCount s.params.quantumNum (s.acc + s.params.quantumDen * d) = k at *
  generalize tickCount s.params.quantumNum
    (s.acc + s.params.quantumDen * d - s.params.quantumNum * k + s.params.quantumDen * e) = k' at *
  have hstEq : (updateTime e (updateTime d s)).st.toNat = (updateTime (d + e) s).st.toNat := by
    rw [hst', hst'', hst, Nat.sub_sub]
  refine eq_of_timerFrames s _ _ ?_ (updateTime_frame (d + e) s) ?_ hstEq ?_ ?_
  · rw [updateTime_frame e, updateTime_frame d]
  · rw [hdt', hdt'', hdt, Nat.sub_sub]
  · rw [hspk', hspk'', ← hstEq, hst', hspk]
    by_cases hk' : k' = 0 <;> simp [hk']
  · rw [hacc', hacc'', ← Nat.sub_add_comm hle, Nat.sub_sub, Nat.mul_add]

/-- No time passes in no time, if the loop has nothing left to take. -/
theorem updateTime_zero (s : State) (hacc : s.acc ≤ s.params.quantumNum) : updateTime 0 s = s :=
  tickLoop_stop _ s (Nat.not_lt.2 hacc)

/-- Settles O44: by induction on the pieces, the first two taken together. -/
theorem timeMayBeCutIntoPieces : Obligations.TimeMayBeCutIntoPieces := by
  unfold Obligations.TimeMayBeCutIntoPieces
  intro ds s hq hacc
  induction ds generalizing s with
  | nil => exact (updateTime_zero s hacc).symm
  | cons d rest ih =>
    have hparams := updateTime_params d s
    rw [List.foldl_cons, ih (updateTime d s) (by rw [hparams]; exact hq) (by rw [hparams]; exact updateTime_acc d s hq),
      updateTime_updateTime d rest.sum s hq, List.sum_cons]

/-! ## The tick count -/

/-- The count as the rule writes it for one `update_time`. -/
theorem tickCount_eq_ite (q a : Nat) (hq : 0 < q) : tickCount q a = if a ≤ q then 0 else (a - 1) / q := by
  split_ifs with h
  · exact tickCount_of_le q a hq h
  · rfl

/-- The count as the rule writes it for a whole history: one tick less where the quantum divides the total. -/
theorem tickCount_eq_div (q a : Nat) :
    tickCount q a = if a ≠ 0 ∧ a % q = 0 then a / q - 1 else a / q := by
  cases a with
  | zero => simp [tickCount]
  | succ n =>
    rw [tickCount, Nat.succ_div]
    by_cases h : (n + 1) % q = 0 <;> simp [h, Nat.dvd_iff_mod_eq_zero]

/-- Settles O43: the loop's closed form, for a history that of its sum. -/
theorem tickCountClosedForm : Obligations.TickCountClosedForm := by
  unfold Obligations.TickCountClosedForm
  refine ⟨transact_updateTime, fun d s hq => ?_, fun ds s hq hacc => ?_, rfl, rfl⟩
  · obtain ⟨hacc, hdt, hst, hspk⟩ := updateTime_ticked d s hq
    rw [tickCount_eq_ite _ _ hq] at hacc hdt hst hspk
    exact ⟨hacc, hdt, hst, hspk, updateTime_frame d s, fun a => by rw [updateTime_frame]; rfl⟩
  · rw [timeMayBeCutIntoPieces ds s hq (by omega)]
    obtain ⟨hacc', hdt, hst, -⟩ := updateTime_ticked ds.sum s hq
    rw [hacc, Nat.zero_add, tickCount_eq_div] at hacc' hdt hst
    exact ⟨hacc', hdt, hst⟩

end Sys2Proof.Machine
end

section
/-! Stale stack entries (10_state.md R27, D35): every operation but the two of the call stack neither reads nor writes
the entries, and the two read and leave alike those below `SP`. So two states that differ in stale entries only answer
every transaction alike. -/

namespace Sys2Proof.Machine

/-- The state with other stack entries. -/
def State.withStack (k : Vector Addr 16) (s : State) : State := { s with stack := k }

/-- Two states that differ in stale entries only are one state with two stacks that agree below `SP`. -/
theorem SameButStaleStack.exists_withStack {s t : State} (h : SameButStaleStack s t) :
    ∃ k : Vector Addr 16, t = s.withStack k ∧ ∀ j : Fin 16, j.val < s.sp.val → k[j] = s.stack[j] :=
  ⟨t.stack, h.1, h.2⟩

theorem sameButStaleStack_withStack (s : State) (k : Vector Addr 16)
    (hk : ∀ j : Fin 16, j.val < s.sp.val → k[j] = s.stack[j]) : SameButStaleStack s (s.withStack k) := ⟨rfl, hk⟩

theorem SameButStaleStack.refl (s : State) : SameButStaleStack s s := ⟨rfl, fun _ _ => rfl⟩

/-- An operation that does not look at the stack keeps the difference where it is. -/
theorem SameButStaleStack.map {s t : State} (h : SameButStaleStack s t) (f : State → State)
    (hf : ∀ k, f (s.withStack k) = (f s).withStack k) (hsp : (f s).sp = s.sp) (hstack : (f s).stack = s.stack) :
    SameButStaleStack (f s) (f t) := by
  obtain ⟨k, rfl, hk⟩ := h.exists_withStack
  rw [hf]
  refine sameButStaleStack_withStack (f s) k fun j hj => ?_
  rw [hsp] at hj
  rw [hstack, hk j hj]

/-! ## The operations that do not look at the stack -/

theorem setVThenFlag_withStack (k : Vector Addr 16) (s : State) (x : Reg) (b : Byte) (flag : Bool) :
    (s.withStack k).setVThenFlag x b flag = (s.setVThenFlag x b flag).withStack k := by
  simp only [State.setVThenFlag, State.withStack]
  cases s.params.vfDestOrder <;> rfl

theorem afterBulk_withStack (k : Vector Addr 16) (x : Reg) (s : State) :
    afterBulk x (s.withStack k) = (afterBulk x s).withStack k := by
  simp only [afterBulk, State.withStack]
  cases s.params.iIncrement <;> rfl

theorem keyWaitService_withStack (k : Vector Addr 16) (r : Reg) (s : State) :
    keyWaitService r (s.withStack k) = (keyWaitService r s).withStack k := by
  have hkey : (s.withStack k).firstKey = s.firstKey := rfl
  rw [keyWaitService, keyWaitService, hkey]
  cases s.firstKey <;> rfl

theorem sampled_withStack (k : Vector Addr 16) (inputs : Option (Keys × Byte)) (s : State) :
    sampled inputs (s.withStack k) = (sampled inputs s).withStack k := by
  cases inputs <;> rfl

theorem writeBytes_withStack (k : Vector Addr 16) (a : Addr) (bytes : List Byte) (s : State) :
    (s.withStack k).writeBytes a bytes = (s.writeBytes a bytes).withStack k := by
  induction bytes generalizing s a with
  | nil => rfl
  | cons b rest ih => exact ih (a + 1) (s.writeByte a b)

theorem updateTime_withStack (k : Vector Addr 16) (d : Nat) (s : State) :
    updateTime d (s.withStack k) = (updateTime d s).withStack k :=
  updateTime_commutes (State.withStack k) (fun _ => rfl) (fun _ => rfl) (fun _ _ => rfl) (fun _ => rfl) d s

theorem loopTo_withStack (k : Vector Addr 16) (m : Nat) (body : Nat → State → State)
    (hbody : ∀ j s, body j (s.withStack k) = (body j s).withStack k) (s : State) :
    loopTo m body (s.withStack k) = (loopTo m body s).withStack k := by
  induction m with
  | zero => exact hbody 0 s
  | succ m ih => rw [loopTo, loopTo, ih, hbody]

theorem skipIf_withStack (k : Vector Addr 16) (c : Bool) (s t : State) (h : skipIf c s = .next t) :
    skipIf c (s.withStack k) = .next (t.withStack k) := by
  rw [skipIf_eq] at h ⊢
  cases h
  rfl

/-! ## Instructions -/

/-- An instruction that does not reach the call stack answers the same with other entries. -/
theorem exec_withStack (k : Vector Addr 16) (i : Instr) (s t : State) (hi : writesStack i = false)
    (h : exec i s = .next t) : exec i (s.withStack k) = .next (t.withStack k) := by
  cases i with
  | ret | call => cases hi
  | seImm | sneImm | seReg | sneReg | skp | sknp => exact skipIf_withStack k _ s t h
  | addReg | subReg | shr | subn | shl =>
    cases h
    exact congrArg Host.Outcome.next (setVThenFlag_withStack k s _ _ _)
  | storeRegs x =>
    rw [exec_storeRegs] at h ⊢
    cases h
    rw [loopTo_withStack k, afterBulk_withStack]
    exact fun _ _ => rfl
  | loadRegs x =>
    rw [exec_loadRegs] at h ⊢
    cases h
    rw [loopTo_withStack k, afterBulk_withStack]
    exact fun _ _ => rfl
  | storeBank x =>
    rw [exec_storeBank] at h ⊢
    cases h
    rw [loopTo_withStack k]
    exact fun _ _ => rfl
  | loadBank x =>
    rw [exec_loadBank] at h ⊢
    cases h
    rw [loopTo_withStack k]
    exact fun _ _ => rfl
  | _ => cases h; rfl

/-- A push writes the same entry on both sides, so the entries below the new `SP` agree. -/
theorem SameButStaleStack.push {s t : State} (h : SameButStaleStack s t) (a : Addr) :
    SameButStaleStack (s.push a) (t.push a) := by
  obtain ⟨k, rfl, hk⟩ := h.exists_withStack
  by_cases hlt : s.sp.val < 16
  · rw [State.push_of_lt s a hlt, State.push_of_lt (s.withStack k) a hlt]
    refine ⟨rfl, fun j hj => ?_⟩
    change (k.set s.sp.val a)[j.val] = (s.stack.set s.sp.val a)[j.val]
    rw [Vector.getElem_set, Vector.getElem_set]
    split_ifs with hj'
    · rfl
    · exact hk j (Nat.lt_of_le_of_ne (Nat.le_of_lt_succ hj) (Ne.symm hj'))
  · rw [State.push_of_full s a hlt, State.push_of_full (s.withStack k) a hlt]
    exact h

/-- A pop reads an entry below `SP`, which agrees. -/
theorem SameButStaleStack.popToPc {s t : State} (h : SameButStaleStack s t) :
    SameButStaleStack s.popToPc t.popToPc := by
  obtain ⟨k, rfl, hk⟩ := h.exists_withStack
  by_cases hpos : 0 < s.sp.val
  · have htop : k[s.sp.val - 1] = s.stack[s.sp.val - 1] :=
      hk ⟨s.sp.val - 1, by omega⟩ (Nat.sub_lt hpos Nat.one_pos)
    rw [State.popToPc_of_pos s hpos, State.popToPc_of_pos (s.withStack k) hpos]
    refine ⟨?_, fun j hj => hk j (Nat.lt_of_lt_of_le hj (Nat.sub_le _ _))⟩
    simp only [State.withStack, htop]
  · rw [State.popToPc_of_empty s hpos, State.popToPc_of_empty (s.withStack k) hpos]
    exact h

/-! ## Answers -/

/-- Two answers that a host cannot tell apart: next states that differ in stale entries only, or the same refusal. -/
def AnswersAlike (a b : Result) : Prop :=
  match a, b with
  | .next s, .next t => SameButStaleStack s t
  | .refused why, .refused why' => why = why'
  | _, _ => False

/-- Every instruction answers two such states alike. -/
theorem exec_answersAlike (i : Instr) {s t : State} (h : SameButStaleStack s t) :
    AnswersAlike (exec i s) (exec i t) := by
  cases hi : writesStack i with
  | true =>
    cases i with
    | ret => exact h.popToPc
    | call nnn =>
      have hpc : t.pc = s.pc := by rw [h.1]
      rw [exec_call, exec_call, hpc]
      exact (h.push s.pc).map (fun u => u.setPc nnn) (fun _ => rfl) rfl rfl
    | _ => cases hi
  | false =>
    obtain ⟨k, rfl, hk⟩ := h.exists_withStack
    obtain ⟨u, hu⟩ := exists_exec_eq_next i s
    have w := exec_writesOnlyNamed i s u hu
    rw [exec_withStack k i s u hi hu, hu]
    refine sameButStaleStack_withStack u k fun j hj => ?_
    rw [w.sp hi] at hj
    rw [w.stack hi, hk j hj]

/-- Every fetched word is run alike. -/
theorem runWord_answersAlike {s t : State} (h : SameButStaleStack s t) : AnswersAlike (runWord s) (runWord t) := by
  have hadvance := h.map State.advancePc (fun _ => rfl) rfl rfl
  obtain ⟨k, rfl, -⟩ := h.exists_withStack
  cases hd : decode (wordAtPc s) with
  | instr i =>
    rw [runWord_of_instr s i hd, runWord_of_instr (s.withStack k) i hd]
    exact exec_answersAlike i hadvance
  | noOp =>
    rw [runWord_of_noOp s hd, runWord_of_noOp (s.withStack k) hd]
    exact hadvance

theorem sampled_sameButStaleStack (inputs : Option (Keys × Byte)) {s t : State} (h : SameButStaleStack s t) :
    SameButStaleStack (sampled inputs s) (sampled inputs t) :=
  h.map (sampled inputs) (fun k => sampled_withStack k inputs s) (by rw [sampled_frame]) (by rw [sampled_frame])

theorem keyWaitService_sameButStaleStack (r : Reg) {s t : State} (h : SameButStaleStack s t) :
    SameButStaleStack (keyWaitService r s) (keyWaitService r t) :=
  h.map (keyWaitService r) (fun k => keyWaitService_withStack k r s) (by rw [keyWaitService_frame])
    (by rw [keyWaitService_frame])

/-- A `step` is refused, halted, a poll or a fetch on both sides alike. -/
theorem stepTransaction_answersAlike (inputs : Option (Keys × Byte)) {s t : State} (h : SameButStaleStack s t) :
    AnswersAlike (stepTransaction inputs s) (stepTransaction inputs t) := by
  have hsampled := sampled_sameButStaleStack inputs h
  obtain ⟨k, rfl, -⟩ := h.exists_withStack
  by_cases hphase : s.phase = .beforeInit
  · rw [stepTransaction_of_beforeInit inputs s hphase, stepTransaction_of_beforeInit inputs (s.withStack k) hphase]
    rfl
  · by_cases hpoller : s.keyPoller = true
    · obtain hhalt | ⟨r, hpolls⟩ | hfetches := halted_or_polls_or_fetches s hphase hpoller
      · rw [stepTransaction_of_halted inputs s hphase hpoller hhalt,
          stepTransaction_of_halted inputs (s.withStack k) hphase hpoller hhalt]
        exact h
      · rw [stepTransaction_of_polls inputs r s hpolls, stepTransaction_of_polls inputs r (s.withStack k) hpolls]
        exact keyWaitService_sameButStaleStack r hsampled
      · rw [stepTransaction_of_fetches inputs s hfetches, stepTransaction_of_fetches inputs (s.withStack k) hfetches]
        exact runWord_answersAlike hsampled
    · rw [Bool.not_eq_true] at hpoller
      rw [stepTransaction_of_noPoller inputs s hphase hpoller,
        stepTransaction_of_noPoller inputs (s.withStack k) hphase hpoller]
      rfl

theorem loadRom_answersAlike (bytes : List Byte) {s t : State} (h : SameButStaleStack s t) :
    AnswersAlike (loadRom bytes s) (loadRom bytes t) := by
  have hwritten := h.map (fun u => u.writeBytes (BitVec.ofNat 12 programStart) bytes)
    (fun k => writeBytes_withStack k _ bytes s) (by rw [State.writeBytes_frame]) (by rw [State.writeBytes_frame])
  have hphase : t.phase = s.phase := by rw [h.1]
  rw [loadRom, loadRom, hphase]
  cases s.phase with
  | beforeInit | started => rfl
  | loadable =>
    cases romWellFormed bytes with
    | true => exact hwritten
    | false => rfl

theorem afterInit_answersAlike {s t u v : State} (h : SameButStaleStack s t) (huv : SameButStaleStack u v) :
    AnswersAlike (afterInit s u) (afterInit t v) := by
  have hphase : t.phase = s.phase := by rw [h.1]
  rw [afterInit, afterInit, hphase]
  split_ifs
  · rfl
  · exact huv

/-- Every transaction answers two such states alike. -/
theorem transact_answersAlike (tr : Transaction) {s t : State} (h : SameButStaleStack s t) :
    AnswersAlike (transact tr s) (transact tr t) := by
  cases tr with
  | init =>
    obtain ⟨k, rfl, -⟩ := h.exists_withStack
    exact SameButStaleStack.refl (initMachine s)
  | load bytes => exact loadRom_answersAlike bytes h
  | step inputs => exact stepTransaction_answersAlike inputs h
  | updateTime d =>
    exact afterInit_answersAlike h (h.map (updateTime d) (fun k => updateTime_withStack k d s)
      (by rw [updateTime_frame]) (by rw [updateTime_frame]))
  | setKeyPoller => exact h.map (fun u => { u with keyPoller := true }) (fun _ => rfl) rfl rfl
  | setSpeaker => exact h
  | read port => exact afterInit_answersAlike h h

/-- The machine performs the same transaction on both sides. -/
theorem step_answersAlike {s t : State} (h : SameButStaleStack s t) : AnswersAlike (step s) (step t) := by
  have hagenda : t.agenda = s.agenda := by rw [h.1]
  rw [step, step, nextTransaction, nextTransaction, hagenda]
  cases s.agenda with
  | nil => exact transact_answersAlike _ h
  | cons tr rest =>
    exact transact_answersAlike tr (h.map (fun u => { u with agenda := rest }) (fun _ => rfl) rfl rfl)

/-- Settles O53: the two states answer the machine's step alike. -/
theorem staleStackEntriesUnobservable : Obligations.StaleStackEntriesUnobservable := by
  unfold Obligations.StaleStackEntriesUnobservable
  intro s t h
  have halike := step_answersAlike h
  constructor
  · intro s' hs'
    rw [hs'] at halike
    cases ht : step t with
    | next t' =>
      rw [ht] at halike
      exact ⟨t', rfl, halike⟩
    | fault why | refused why => rw [ht] at halike; cases halike
  · intro why hwhy
    rw [hwhy] at halike
    cases ht : step t with
    | refused why' =>
      rw [ht] at halike
      exact congrArg Host.Outcome.refused halike.symm
    | next t' | fault why' => rw [ht] at halike; cases halike

end Sys2Proof.Machine
end

section
/-! Registers and arithmetic (42_alu.md R150 to R164): the bitwise operations, the masked random byte, and the
flag-writing instructions, each one result and one flag. -/

namespace Sys2Proof.Machine

/-! ## Bit by bit -/

/-- Settles O21: each of the three answers `setV` with the operation of the bytes, which is that of their bits. -/
theorem bitwiseOperations : Obligations.BitwiseOperations := by
  unfold Obligations.BitwiseOperations
  intro x y s
  refine ⟨⟨_, exec_orReg x y s, onlyReg_setV s x _, fun j => ?_⟩,
    ⟨_, exec_andReg x y s, onlyReg_setV s x _, fun j => ?_⟩, ⟨_, exec_xorReg x y s, onlyReg_setV s x _, fun j => ?_⟩⟩
  · rw [State.getV_setV_same, BitVec.getLsbD_or]
  · rw [State.getV_setV_same, BitVec.getLsbD_and]
  · rw [State.getV_setV_same, BitVec.getLsbD_xor]

/-- Settles O25: the sampled byte is masked bit by bit, whatever it is. -/
theorem randomByteIsMasked : Obligations.RandomByteIsMasked := by
  unfold Obligations.RandomByteIsMasked
  intro x kk s
  refine ⟨_, exec_rnd x kk s, onlyReg_setV s x _, fun j => ?_⟩
  rw [State.getV_setV_same, BitVec.getLsbD_and]

/-! ## Results and flags as numbers -/

theorem toNat_diffByte (a b : Byte) : (diffByte a b).toNat = (a.toNat + 256 - b.toNat) % 256 := BitVec.toNat_ofNat _ _

theorem toNat_halfByte (a : Byte) : (halfByte a).toNat = a.toNat / 2 := by
  rw [halfByte, BitVec.toNat_ofNat]
  omega

theorem toNat_doubleByte (a : Byte) : (doubleByte a).toNat = a.toNat * 2 % 256 := BitVec.toNat_ofNat _ _

theorem carry_iff (a b : Byte) : carry a b = true ↔ a.toNat + b.toNat > 255 := decide_eq_true_iff

theorem exceeds_iff (a b : Byte) : exceeds a b = true ↔ a > b := decide_eq_true_iff

theorem lowBit_iff (a : Byte) : lowBit a = true ↔ a.toNat % 2 = 1 := by
  rw [lowBit, BitVec.getLsbD, Nat.testBit_zero, decide_eq_true_iff]

theorem highBit_iff (a : Byte) : highBit a = true ↔ a.toNat ≥ 128 := by
  have ha := a.isLt
  rw [highBit, BitVec.getLsbD, Nat.testBit_eq_decide_div_mod_eq, decide_eq_true_iff]
  omega

/-! ## The outcome of a result and a flag (R151) -/

theorem onlyRegs_setVThenFlag (s : State) (x : Reg) (b : Byte) (flag : Bool) :
    OnlyRegs s (s.setVThenFlag x b flag) := by
  refine ⟨s.setVThenFlag_frame x b flag, fun a => ?_⟩
  rw [State.setVThenFlag_frame]
  rfl

/-- A result and a flag written as `VF_DEST_ORDER` says have the outcome of R151. -/
theorem flagOutcome_setVThenFlag (s : State) (x : Reg) (b : Byte) (flag : Bool) (result : Nat) (condition : Prop)
    (hb : b.toNat = result) (hflag : flag = true ↔ condition) :
    FlagOutcome x result condition s (s.setVThenFlag x b flag) := by
  refine ⟨onlyRegs_setVThenFlag s x b flag, fun hstays => ?_, fun hx => ?_, fun k hk hk15 => ?_⟩
  · rw [ResultStays] at hstays
    rw [State.getV_setVThenFlag, if_pos rfl, if_neg hstays, ← hflag]
    cases flag with
    | true => exact ⟨fun _ => rfl, fun h => absurd rfl h⟩
    | false => exact ⟨nofun, fun _ => rfl⟩
  · rw [State.getV_setVThenFlag, ← hb]
    obtain hstays | hx := hx
    · rw [ResultStays] at hstays
      rw [if_pos hstays.1, if_pos hstays]
    · rw [if_neg hx, if_pos rfl]
  · rw [State.getV_setVThenFlag, if_neg hk15, if_neg hk]

/-- Where the flag stays, it is 1 exactly under its condition. -/
theorem FlagOutcome.flag_eq_one_iff {x : Reg} {result : Nat} {condition : Prop} {s t : State}
    (h : FlagOutcome x result condition s t) (hstays : ¬ ResultStays x s) : t.getV 15 = 1 ↔ condition := by
  obtain ⟨-, hflag, -, -⟩ := h
  obtain ⟨hone, hzero⟩ := hflag hstays
  refine ⟨fun h1 => ?_, hone⟩
  by_contra hc
  exact absurd ((hzero hc).symm.trans h1) (by decide)

/-- Settles O22: ADD is the sum with the carry; the masked sum is below an operand exactly when the carry is set. -/
theorem addSetsCarry : Obligations.AddSetsCarry := by
  unfold Obligations.AddSetsCarry
  intro x y s
  have hout := flagOutcome_setVThenFlag s x _ _ _ _ (toNat_sumByte (s.getV x) (s.getV y))
    (carry_iff (s.getV x) (s.getV y))
  refine ⟨_, exec_addReg x y s, hout, fun hx => ?_⟩
  rw [hout.flag_eq_one_iff fun hstays => hx hstays.1]
  obtain ⟨-, -, hresult, -⟩ := hout
  rw [hresult (.inr hx)]
  have hy := (s.getV y).isLt
  omega

/-- Settles O23: SUB and SUBN are one difference and one comparison, with the operands exchanged. -/
theorem subtractionsCompareStrictly : Obligations.SubtractionsCompareStrictly := by
  unfold Obligations.SubtractionsCompareStrictly
  intro x y s
  exact ⟨⟨_, exec_subReg x y s, flagOutcome_setVThenFlag s x _ _ _ _ (toNat_diffByte _ _) (exceeds_iff _ _)⟩,
    ⟨_, exec_subn x y s, flagOutcome_setVThenFlag s x _ _ _ _ (toNat_diffByte _ _) (exceeds_iff _ _)⟩⟩

/-- Settles O24: each shift is the half or the double, with the bit that it loses. -/
theorem shiftsMoveOneBit : Obligations.ShiftsMoveOneBit := by
  unfold Obligations.ShiftsMoveOneBit
  intro x y s
  exact ⟨⟨_, exec_shr x y s, flagOutcome_setVThenFlag s x _ _ _ _ (toNat_halfByte _) (lowBit_iff _)⟩,
    ⟨_, exec_shl x y s, flagOutcome_setVThenFlag s x _ _ _ _ (toNat_doubleByte _) (highBit_iff _)⟩⟩

end Sys2Proof.Machine
end

section
/-! Call and return (41_control_flow.md R120, R122). -/

namespace Sys2Proof.Machine

/-- A push changes the stack and `SP` only. -/
theorem State.push_frame (s : State) (a : Addr) :
    s.push a = { s with sp := (s.push a).sp, stack := (s.push a).stack } := by
  unfold State.push
  split <;> rfl

/-- A pop changes `SP` and `pc` only. -/
theorem State.popToPc_frame (s : State) : s.popToPc = { s with sp := s.popToPc.sp, pc := s.popToPc.pc } := by
  unfold State.popToPc
  split <;> rfl

theorem onlyStackAndPc_call (s : State) (nnn : Addr) : OnlyStackAndPc s ((s.push s.pc).setPc nnn) := by
  rw [State.push_frame]
  exact ⟨rfl, fun _ => rfl⟩

theorem onlyStackAndPc_popToPc (s : State) : OnlyStackAndPc s s.popToPc := by
  rw [State.popToPc_frame]
  exact ⟨rfl, fun _ => rfl⟩

/-- Settles O17: a call is a push of the advanced `pc` and a jump. -/
theorem callPushesAndJumps : Obligations.CallPushesAndJumps := by
  unfold Obligations.CallPushesAndJumps
  intro nnn s
  refine ⟨_, exec_call nnn s, onlyStackAndPc_call s nnn, State.setPc_pc _ nnn, fun hlt => ?_, fun hfull => ?_⟩
  · rw [State.push_of_lt s s.pc hlt]
    refine ⟨rfl, Vector.getElem_set_self _, fun k hk => ?_⟩
    exact Vector.getElem_set_ne hlt k.isLt (Ne.symm hk)
  · rw [State.push_of_full s s.pc (by omega)]
    exact ⟨rfl, rfl⟩

/-- Settles O18: a return is a pop, which leaves the entries. -/
theorem retPopsIntoPc : Obligations.RetPopsIntoPc := by
  unfold Obligations.RetPopsIntoPc
  intro s
  refine ⟨_, exec_ret s, onlyStackAndPc_popToPc s, by rw [State.popToPc_frame], fun hpos => ?_, fun hzero => ?_⟩
  · rw [State.popToPc_of_pos s hpos]
    exact ⟨rfl, rfl⟩
  · exact s.popToPc_of_empty (by omega)

/-- Settles O19: the entry that the return pops is the one that the call pushed. -/
theorem returnAfterCall : Obligations.ReturnAfterCall := by
  unfold Obligations.ReturnAfterCall
  intro nnn s t u hlt hcall hstack hsp
  rw [exec_call, State.push_of_lt s s.pc hlt] at hcall
  cases hcall
  have hpos : 0 < u.sp.val := by rw [hsp]; exact Nat.succ_pos _
  refine ⟨_, exec_ret u, ?_, ?_⟩
  · rw [State.popToPc_of_pos u hpos]
    simp [hstack, hsp, State.setPc]
  · rw [State.popToPc_of_pos u hpos]
    simp [hsp, State.setPc]

end Sys2Proof.Machine
end

section
/-! Address register, loads and stores (43_memory_index.md R183 to R189): the large glyph, the decimal digits, the bulk
moves between registers and memory, and those between registers and the persistent bank. -/

namespace Sys2Proof.Machine

/-! ## Large glyphs -/

/-- Settles O27: the address is a sum mod 4096, which with `EXT_FONT_BASE` 0x0A0 is below 4096. -/
theorem largeGlyphAddress : Obligations.LargeGlyphAddress := by
  unfold Obligations.LargeGlyphAddress
  intro x s
  have haddr := toNat_glyphAddr s.params.extFontBase.toNat extFontGlyphBytes (s.getV x)
  refine ⟨_, exec_ldHFont x s, onlyI_setI s _, haddr, fun htaken => ?_⟩
  rw [State.setI_i, haddr, htaken]
  simp only [parametersTaken, extFontGlyphBytes]
  change (0x0A0 + _) % 4096 = _
  omega

/-! ## Decimal digits -/

theorem toNat_hundreds (b : Byte) : (hundreds b).toNat = b.toNat / 100 := by
  rw [hundreds, BitVec.toNat_ofNat]
  omega

theorem toNat_tens (b : Byte) : (tens b).toNat = b.toNat / 10 % 10 := by
  rw [tens, BitVec.toNat_ofNat]
  omega

theorem toNat_ones (b : Byte) : (ones b).toNat = b.toNat % 10 := by
  rw [ones, BitVec.toNat_ofNat]
  omega

/-- Settles O28: the three addresses differ, so each byte holds the digit written to it. -/
theorem bcdStoresThreeDigits : Obligations.BcdStoresThreeDigits := by
  unfold Obligations.BcdStoresThreeDigits
  intro x s
  have hread : ∀ a, (((s.writeByte (s.addrAt 0) (hundreds (s.getV x))).writeByte (s.addrAt 1)
      (tens (s.getV x))).writeByte (s.addrAt 2) (ones (s.getV x))).readByte a =
      if a = s.addrAt 2 then ones (s.getV x) else if a = s.addrAt 1 then tens (s.getV x)
      else if a = s.addrAt 0 then hundreds (s.getV x) else s.readByte a := by
    intro a
    simp only [State.readByte_writeByte]
  have hne : s.addrAt 0 ≠ s.addrAt 1 ∧ s.addrAt 0 ≠ s.addrAt 2 ∧ s.addrAt 1 ≠ s.addrAt 2 := by
    simp [State.addrAt_inj]
  obtain ⟨h01, h02, h12⟩ := hne
  have hx := (s.getV x).isLt
  refine ⟨_, exec_bcd x s, ⟨rfl, fun a ha => ?_⟩, ?_⟩
  · obtain ⟨h0, h1, h2⟩ : a ≠ s.addrAt 0 ∧ a ≠ s.addrAt 1 ∧ a ≠ s.addrAt 2 := by simpa using ha
    rw [hread, if_neg h2, if_neg h1, if_neg h0]
  · simp only [hread, if_neg h01, if_neg h02, if_neg h12, if_true, toNat_hundreds, toNat_tens, toNat_ones]
    exact ⟨by omega, by omega, by omega, by omega, fun k _ => State.toNat_addrAt s k⟩

/-! ## Bulk moves with memory -/

theorem regAt_self (k : Reg) : regAt k.val = k := Fin.ext (regAt_val k.val k.isLt)

theorem afterBulk_readByte (x : Reg) (s : State) (a : Addr) : (afterBulk x s).readByte a = s.readByte a := by
  rw [afterBulk_frame]
  rfl

theorem afterBulk_getV (x : Reg) (s : State) (k : Reg) : (afterBulk x s).getV k = s.getV k := by
  rw [afterBulk_frame]
  rfl

/-- `I` after a bulk move, as the rule has it. -/
theorem afterBulk_i_eq_bulkI (x : Reg) (s : State) : (afterBulk x s).i.toNat = bulkI x s := afterBulk_i x s

/-- The address of the byte `k` lies `k` above `I`. -/
theorem addrAt_sub_i (s : State) (k : Reg) : (s.addrAt k.val - s.i).toNat = k.val := by
  rw [BitVec.toNat_sub, State.toNat_addrAt]
  have hi := s.i.isLt
  have hk := k.isLt
  omega

theorem eq_addrAt_of_sub (s : State) (a : Addr) : a = s.addrAt (a - s.i).toNat := by
  apply BitVec.eq_of_toNat_eq
  rw [State.toNat_addrAt, BitVec.toNat_sub]
  have hi := s.i.isLt
  have ha := a.isLt
  omega

/-- Settles O29: the loop's memory, with `I` as the bulk move leaves it. -/
theorem storeRegistersAtI : Obligations.StoreRegistersAtI := by
  unfold Obligations.StoreRegistersAtI
  intro x s
  have hframe := storeLoop_frame x.val s
  refine ⟨_, exec_storeRegs x s, ?_, ?_, fun a ha => ?_, fun k hk => ?_⟩
  · rw [afterBulk_frame, hframe]
  · rw [afterBulk_i_eq_bulkI, hframe]
    rfl
  · rw [afterBulk_readByte, storeLoop_readByte x.val x.isLt, if_neg]
    intro hle
    exact ha ⟨(a - s.i).toNat, by omega⟩ hle (eq_addrAt_of_sub s a)
  · rw [afterBulk_readByte, storeLoop_readByte x.val x.isLt, addrAt_sub_i, if_pos (Fin.le_def.1 hk), regAt_self]

/-- Settles O30: the loop's registers, with `I` as the bulk move leaves it. -/
theorem loadRegistersFromI : Obligations.LoadRegistersFromI := by
  unfold Obligations.LoadRegistersFromI
  intro x s
  have hframe := loadLoop_frame x.val s
  refine ⟨_, exec_loadRegs x s, ?_, ?_, fun a => ?_, fun k => ?_⟩
  · rw [afterBulk_frame, hframe]
  · rw [afterBulk_i_eq_bulkI, hframe]
    rfl
  · rw [afterBulk_readByte, hframe]
    rfl
  · rw [afterBulk_getV, loadLoop_getV x.val x.isLt]
    rfl

/-- Settles O31: the load reads the addresses that the store wrote. -/
theorem loadAfterStoreRestoresRegisters : Obligations.LoadAfterStoreRestoresRegisters := by
  unfold Obligations.LoadAfterStoreRestoresRegisters
  intro x s t u hstore hsame hi
  obtain ⟨t', hstore', -, -, -, hstored⟩ := storeRegistersAtI x s
  cases hstore.symm.trans hstore'
  obtain ⟨w, hload, -, -, -, hloaded⟩ := loadRegistersFromI x u
  refine ⟨w, hload, fun k hk => ?_⟩
  have haddr : u.addrAt k.val = s.addrAt k.val := by rw [State.addrAt, State.addrAt, hi]
  rw [hloaded k, if_pos hk, haddr, hsame, hstored k hk]

/-! ## Bulk moves with the persistent bank -/

theorem bankTop_lt (x : Reg) : bankTop x < 8 := by
  rw [bankTop]
  omega

/-- The clamp leaves out no persistent register that `x` reaches. -/
theorem le_bankTop_iff (x : Reg) (k : Fin 8) : k.val ≤ bankTop x ↔ k.val ≤ x.val := by
  rw [bankTop]
  omega

theorem regAt_castLE (k : Fin 8) : regAt k.val = k.castLE (by decide) :=
  Fin.ext (regAt_val k.val (by omega))

theorem bankAt_self (k : Fin 8) : bankAt k.val = k := Fin.ext (bankAt_val k.val k.isLt)

/-- Settles O32: each loop copies what the clamped operand reaches, and changes one side only. -/
theorem persistentBankCopies : Obligations.PersistentBankCopies := by
  unfold Obligations.PersistentBankCopies
  intro x s
  refine ⟨⟨_, exec_storeBank x s, ⟨storeBankLoop_frame _ s, fun a => ?_⟩, fun k => ?_⟩,
    ⟨_, exec_loadBank x s, ⟨loadBankLoop_frame _ s, fun a => ?_⟩, fun k => ?_, fun k hk => ?_⟩⟩
  · rw [storeBankLoop_frame]
    rfl
  · simp only [storeBankLoop_getR _ (bankTop_lt x), le_bankTop_iff, regAt_castLE]
  · rw [loadBankLoop_frame]
    rfl
  · rw [loadBankLoop_getV _ (bankTop_lt x)]
    simp only [Fin.val_castLE, le_bankTop_iff, bankAt_self]
  · rw [loadBankLoop_getV _ (bankTop_lt x), if_neg]
    have htop := bankTop_lt x
    omega

end Sys2Proof.Machine
end

section
/-! The display (44_display.md R214 to R225): clear, scrolls and mode switches, pixel by pixel. -/

namespace Sys2Proof.Machine

theorem onlyDisplay_setDisplay (s : State) (d : Display) : OnlyDisplay s (s.setDisplay d) :=
  ⟨rfl, s.setDisplay_readByte d⟩

/-! ## Clear -/

theorem getPixel_clearAll (ext : Bool) (d : Display) (c r : Nat) :
    Display.getPixel ext (Display.clearAll d) c r = false := by
  rw [Display.getPixel]
  exact ite_self false

/-- Settles O33: an empty buffer shows no pixel in either geometry. -/
theorem clearScreenClearsBothGeometries : Obligations.ClearScreenClearsBothGeometries := by
  unfold Obligations.ClearScreenClearsBothGeometries
  intro s
  exact ⟨_, exec_cls s, onlyDisplay_setDisplay s _, fun c r => getPixel_clearAll s.ext s.display c r,
    fun mode c r => getPixel_clearAll mode s.display c r⟩

/-! ## Moves of the region's cells (R215 to R217) -/

/-- A move that takes no cell of the region out of it. -/
def StaysInRegion (ext : Bool) (move : Nat → Nat → Option (Nat × Nat)) : Prop :=
  ∀ c r p, c < widthOf ext → r < heightOf ext → move c r = some p → p.1 < widthOf ext ∧ p.2 < heightOf ext

section

variable {ext : Bool} {move : Nat → Nat → Option (Nat × Nat)} (hmove : StaysInRegion ext move) (d : Display)

include hmove

/-- The cells outside the region stay (D14). -/
theorem cell_moveCells_outside (j : Nat) (hj : widthOf ext * heightOf ext ≤ j) :
    Display.cell (Display.moveCells ext move d) j = Display.cell d j := by
  rw [Bool.eq_iff_iff, Display.cell_eq_true, Display.cell_eq_true, Display.mem_moveCells]
  constructor
  · rintro (⟨k, -, hk, p, hp, rfl⟩ | ⟨hmem, -⟩)
    · obtain ⟨hc, hr⟩ := hmove _ _ p (Nat.mod_lt _ (widthOf_pos ext)) (Nat.div_lt_of_lt_mul hk) hp
      exact absurd (index_lt ext p.1 p.2 hc hr) (Nat.not_lt.2 hj)
    · exact hmem
  · intro hmem
    exact .inr ⟨hmem, Nat.not_lt.2 hj⟩

/-- A pixel is 1 after a move exactly when a pixel that was 1 came there. -/
theorem getPixel_moveCells (c r : Nat) (hc : c < widthOf ext) (hr : r < heightOf ext) :
    Display.getPixel ext (Display.moveCells ext move d) c r = true ↔
      ∃ c' r', c' < widthOf ext ∧ r' < heightOf ext ∧ move c' r' = some (c, r) ∧
        Display.getPixel ext d c' r' = true := by
  rw [Display.getPixel_inside ext _ c r hc hr, Display.cell_eq_true, Display.mem_moveCells]
  constructor
  · rintro (⟨j, hmem, hj, p, hp, hpos⟩ | ⟨-, hout⟩)
    · have hc' := Nat.mod_lt j (widthOf_pos ext)
      have hr' := Nat.div_lt_of_lt_mul hj
      obtain ⟨hpc, hpr⟩ := hmove _ _ p hc' hr' hp
      have hp1 : p.1 = c := by rw [← index_mod ext p.1 p.2 hpc, hpos, index_mod ext c r hc]
      have hp2 : p.2 = r := by rw [← index_div ext p.1 p.2 hpc, hpos, index_div ext c r hc]
      refine ⟨_, _, hc', hr', hp.trans (congrArg some (Prod.ext hp1 hp2)), ?_⟩
      rw [Display.getPixel_inside ext d _ _ hc' hr', Display.cell_eq_true, Nat.div_add_mod']
      exact hmem
    · exact absurd (index_lt ext c r hc hr) hout
  · rintro ⟨c', r', hc', hr', hp, hpixel⟩
    rw [Display.getPixel_inside ext d c' r' hc' hr', Display.cell_eq_true] at hpixel
    refine .inl ⟨_, hpixel, index_lt ext c' r' hc' hr', (c, r), ?_, rfl⟩
    rw [index_mod ext c' r' hc', index_div ext c' r' hc', hp]

/-- A place that one pixel comes to shows that pixel. -/
theorem getPixel_moveCells_of_source (c r c' r' : Nat) (hc : c < widthOf ext) (hr : r < heightOf ext)
    (hc' : c' < widthOf ext) (hr' : r' < heightOf ext) (hp : move c' r' = some (c, r))
    (honly : ∀ c'' r'', move c'' r'' = some (c, r) → c'' = c' ∧ r'' = r') :
    Display.getPixel ext (Display.moveCells ext move d) c r = Display.getPixel ext d c' r' := by
  rw [Bool.eq_iff_iff, getPixel_moveCells hmove d c r hc hr]
  constructor
  · rintro ⟨c'', r'', -, -, hp', hpixel⟩
    obtain ⟨rfl, rfl⟩ := honly c'' r'' hp'
    exact hpixel
  · intro hpixel
    exact ⟨c', r', hc', hr', hp, hpixel⟩

/-- A place that no pixel comes to is 0. -/
theorem getPixel_moveCells_of_no_source (c r : Nat) (hc : c < widthOf ext) (hr : r < heightOf ext)
    (hnone : ∀ c' r', c' < widthOf ext → r' < heightOf ext → move c' r' ≠ some (c, r)) :
    Display.getPixel ext (Display.moveCells ext move d) c r = false := by
  rw [← Bool.not_eq_true, getPixel_moveCells hmove d c r hc hr]
  rintro ⟨c', r', hc', hr', hp, -⟩
  exact hnone c' r' hc' hr' hp

end

/-! ## The three scrolls -/

/-- Where `scroll_down(k)` moves a pixel to. -/
def downBy (ext : Bool) (k c r : Nat) : Option (Nat × Nat) := if r + k < heightOf ext then some (c, r + k) else none

/-- Where `scroll_right()` moves a pixel to. -/
def rightBy4 (ext : Bool) (c r : Nat) : Option (Nat × Nat) := if c + 4 < widthOf ext then some (c + 4, r) else none

/-- Where `scroll_left()` moves a pixel to. -/
def leftBy4 (c r : Nat) : Option (Nat × Nat) := if 4 ≤ c then some (c - 4, r) else none

theorem scrollDown_eq (ext : Bool) (k : Nat) (d : Display) :
    Display.scrollDown ext k d = Display.moveCells ext (downBy ext k) d := rfl

theorem scrollRight_eq (ext : Bool) (d : Display) :
    Display.scrollRight ext d = Display.moveCells ext (rightBy4 ext) d := rfl

theorem scrollLeft_eq (ext : Bool) (d : Display) : Display.scrollLeft ext d = Display.moveCells ext leftBy4 d := rfl

theorem downBy_eq_some (ext : Bool) (k c r c' r' : Nat) :
    downBy ext k c r = some (c', r') ↔ r' < heightOf ext ∧ c = c' ∧ r + k = r' := by
  unfold downBy
  split_ifs <;> simp <;> omega

theorem rightBy4_eq_some (ext : Bool) (c r c' r' : Nat) :
    rightBy4 ext c r = some (c', r') ↔ c' < widthOf ext ∧ c + 4 = c' ∧ r = r' := by
  unfold rightBy4
  split_ifs <;> simp <;> omega

theorem leftBy4_eq_some (c r c' r' : Nat) : leftBy4 c r = some (c', r') ↔ c = c' + 4 ∧ r = r' := by
  unfold leftBy4
  split_ifs <;> simp <;> omega

theorem downBy_staysInRegion (ext : Bool) (k : Nat) : StaysInRegion ext (downBy ext k) := by
  rintro c r ⟨c', r'⟩ hc _ hp
  obtain ⟨hr', rfl, rfl⟩ := (downBy_eq_some ext k c r c' r').1 hp
  exact ⟨hc, hr'⟩

theorem rightBy4_staysInRegion (ext : Bool) : StaysInRegion ext (rightBy4 ext) := by
  rintro c r ⟨c', r'⟩ _ hr hp
  obtain ⟨hc', rfl, rfl⟩ := (rightBy4_eq_some ext c r c' r').1 hp
  exact ⟨hc', hr⟩

theorem leftBy4_staysInRegion (ext : Bool) : StaysInRegion ext leftBy4 := by
  rintro c r ⟨c', r'⟩ hc hr hp
  obtain ⟨rfl, rfl⟩ := (leftBy4_eq_some c r c' r').1 hp
  exact ⟨by simp only; omega, hr⟩

/-- Settles O34: the pixel that comes to row `r` stood `n` rows higher; to the first `n` rows none comes. -/
theorem scrollDownMovesRows : Obligations.ScrollDownMovesRows := by
  unfold Obligations.ScrollDownMovesRows
  intro n s
  have hstays := downBy_staysInRegion s.ext n.toNat
  refine ⟨_, exec_scd n s, onlyDisplay_setDisplay s _, fun c r hc hr => ?_, fun j hj =>
    cell_moveCells_outside hstays s.display j hj⟩
  simp only [State.pixel, State.setDisplay_ext, State.setDisplay_display, scrollDown_eq]
  split_ifs with hn
  · refine getPixel_moveCells_of_source hstays s.display c r c (r - n.toNat) hc hr hc (by omega) ?_ fun c' r' hp => ?_
    · exact (downBy_eq_some _ _ _ _ _ _).2 ⟨hr, rfl, Nat.sub_add_cancel hn⟩
    · obtain ⟨-, rfl, rfl⟩ := (downBy_eq_some _ _ _ _ _ _).1 hp
      exact ⟨rfl, (Nat.add_sub_cancel r' _).symm⟩
  · refine getPixel_moveCells_of_no_source hstays s.display c r hc hr fun c' r' _ _ hp => ?_
    obtain ⟨-, rfl, rfl⟩ := (downBy_eq_some _ _ _ _ _ _).1 hp
    exact hn (Nat.le_add_left _ r')

/-- Settles O35: the pixel that comes to column `c` stood 4 columns to the other side; to the last 4 none comes. -/
theorem sideScrollsMoveColumns : Obligations.SideScrollsMoveColumns := by
  unfold Obligations.SideScrollsMoveColumns
  intro s
  constructor
  · have hstays := rightBy4_staysInRegion s.ext
    refine ⟨_, exec_scr s, onlyDisplay_setDisplay s _, fun c r hc hr => ?_, fun j hj =>
      cell_moveCells_outside hstays s.display j hj⟩
    simp only [State.pixel, State.setDisplay_ext, State.setDisplay_display, scrollRight_eq]
    split_ifs with h4
    · refine getPixel_moveCells_of_source hstays s.display c r (c - 4) r hc hr (by omega) hr ?_ fun c' r' hp => ?_
      · exact (rightBy4_eq_some _ _ _ _ _).2 ⟨hc, Nat.sub_add_cancel h4, rfl⟩
      · obtain ⟨-, rfl, rfl⟩ := (rightBy4_eq_some _ _ _ _ _).1 hp
        exact ⟨rfl, rfl⟩
    · refine getPixel_moveCells_of_no_source hstays s.display c r hc hr fun c' r' _ _ hp => ?_
      obtain ⟨-, rfl, rfl⟩ := (rightBy4_eq_some _ _ _ _ _).1 hp
      exact h4 (Nat.le_add_left 4 c')
  · have hstays := leftBy4_staysInRegion s.ext
    refine ⟨_, exec_scl s, onlyDisplay_setDisplay s _, fun c r hc hr => ?_, fun j hj =>
      cell_moveCells_outside hstays s.display j hj⟩
    simp only [State.pixel, State.setDisplay_ext, State.setDisplay_display, scrollLeft_eq]
    split_ifs with h4
    · exact getPixel_moveCells_of_source hstays s.display c r (c + 4) r hc hr h4 hr
        ((leftBy4_eq_some _ _ _ _).2 ⟨rfl, rfl⟩) fun c' r' hp => (leftBy4_eq_some _ _ _ _).1 hp
    · refine getPixel_moveCells_of_no_source hstays s.display c r hc hr fun c' r' hc' _ hp => ?_
      obtain ⟨rfl, rfl⟩ := (leftBy4_eq_some _ _ _ _).1 hp
      exact h4 hc'

/-! ## Mode switches (R218) -/

/-- The cell `j` seen in rows of the mode's width. -/
theorem getPixel_of_index (ext : Bool) (d : Display) (j : Nat) (hj : j < widthOf ext * heightOf ext) :
    Display.getPixel ext d (j % widthOf ext) (j / widthOf ext) = Display.cell d j := by
  rw [Display.getPixel_inside ext d _ _ (Nat.mod_lt j (widthOf_pos ext)) (Nat.div_lt_of_lt_mul hj), Nat.div_add_mod']

/-- Settles O36: a mode switch leaves the cells, and a pixel is its cell in either mode. -/
theorem modeSwitchReinterpretsCells : Obligations.ModeSwitchReinterpretsCells := by
  unfold Obligations.ModeSwitchReinterpretsCells
  intro s
  refine ⟨⟨_, exec_low s, rfl, s.setExt_readByte false, fun hext c r hc hr hj => ?_⟩,
    ⟨_, exec_high s, rfl, s.setExt_readByte true, fun hext c r hc hr => ?_⟩⟩
  · rw [State.pixel, State.pixel, hext, Display.getPixel_inside true s.display c r hc hr]
    refine (getPixel_of_index false s.display (128 * r + c) hj).trans ?_
    rw [Nat.mul_comm]
    rfl
  · rw [State.pixel, State.pixel, hext, Display.getPixel_inside false s.display c r hc hr]
    refine (getPixel_of_index true s.display (64 * r + c) (by change _ < 8192; omega)).trans ?_
    rw [Nat.mul_comm]
    rfl

end Sys2Proof.Machine
end

section
/-! Drawing (44_display.md R226, R227): a sprite is drawn bit by bit, no two of its bits share a cell, so each cell is
inverted by its own bit alone. -/

namespace Sys2Proof.Machine

/-! ## The sprite's places -/

theorem spriteShape_eq (s : State) (n : Nibble) :
    spriteShape s.ext n = ⟨spriteRows s n, spriteCols s n, spriteBpr s n⟩ := by
  rw [spriteShape, spriteRows, spriteCols, spriteBpr]
  split_ifs <;> rfl

theorem spriteBit_eq (s : State) (n : Nibble) (r c : Nat) :
    s.spriteBit (spriteShape s.ext n) r c = spriteAt s n r c := by
  rw [spriteShape_eq, State.spriteBit, spriteAt, State.addrAt, Nat.add_assoc]

theorem spriteRows_le (s : State) (n : Nibble) : spriteRows s n ≤ 16 := by
  have hn := n.isLt
  rw [spriteRows]
  split_ifs <;> omega

theorem spriteCols_le (s : State) (n : Nibble) : spriteCols s n ≤ 16 := by
  rw [spriteCols]
  split_ifs <;> omega

theorem le_widthOf (ext : Bool) : 64 ≤ widthOf ext := by cases ext <;> decide

theorem le_heightOf (ext : Bool) : 32 ≤ heightOf ext := by cases ext <;> decide

theorem spriteX_lt (s : State) (x : Reg) (c : Nat) : spriteX s x c < widthOf s.ext := Nat.mod_lt _ (widthOf_pos s.ext)

theorem spriteY_lt (s : State) (y : Reg) (r : Nat) : spriteY s y r < heightOf s.ext := Nat.mod_lt _ (heightOf_pos s.ext)

/-- Every cell of a sprite lies in the region of the mode. -/
theorem spriteCell_lt (s : State) (x y : Reg) (r c : Nat) : spriteCell s x y r c < widthOf s.ext * heightOf s.ext :=
  index_lt s.ext _ _ (spriteX_lt s x c) (spriteY_lt s y r)

/-- Offsets below the modulus that wrap to the same place are the same. -/
theorem add_mod_inj (a j k m : Nat) (hj : j < m) (hk : k < m) (h : (a + j) % m = (a + k) % m) : j = k :=
  Nat.ModEq.eq_of_lt_of_lt (Nat.ModEq.add_left_cancel' a h) hj hk

/-- No two bits of a sprite share a cell: it is narrower and lower than the screen it wraps on. -/
theorem spriteCell_inj (s : State) (x y : Reg) (n : Nibble) (r c r' c' : Nat) (hr : r < spriteRows s n)
    (hc : c < spriteCols s n) (hr' : r' < spriteRows s n) (hc' : c' < spriteCols s n)
    (h : spriteCell s x y r c = spriteCell s x y r' c') : r = r' ∧ c = c' := by
  have hrows := spriteRows_le s n
  have hcols := spriteCols_le s n
  have hheight := le_heightOf s.ext
  have hwidth := le_widthOf s.ext
  have hy : spriteY s y r = spriteY s y r' := by
    rw [← index_div s.ext (spriteX s x c) (spriteY s y r) (spriteX_lt s x c),
      ← index_div s.ext (spriteX s x c') (spriteY s y r') (spriteX_lt s x c')]
    exact congrArg (· / widthOf s.ext) h
  have hx : spriteX s x c = spriteX s x c' := by
    rw [← index_mod s.ext (spriteX s x c) (spriteY s y r) (spriteX_lt s x c),
      ← index_mod s.ext (spriteX s x c') (spriteY s y r') (spriteX_lt s x c')]
    exact congrArg (· % widthOf s.ext) h
  exact ⟨add_mod_inj _ r r' _ (by omega) (by omega) hy, add_mod_inj _ c c' _ (by omega) (by omega) hx⟩

/-! ## Bits drawn one after another -/

/-- The sprite's bit at row `p.1`, column `p.2` drawn. -/
def drawAt (s : State) (x y : Reg) (n : Nibble) (g : Drawing) (p : Nat × Nat) : Drawing :=
  drawBit s.ext (spriteAt s n p.1 p.2) (spriteX s x p.2) (spriteY s y p.1) g

/-- The places of a sprite, row by row. -/
def spritePlaces (s : State) (n : Nibble) : List (Nat × Nat) :=
  List.range (spriteRows s n) ×ˢ List.range (spriteCols s n)

theorem mem_spritePlaces (s : State) (n : Nibble) (p : Nat × Nat) :
    p ∈ spritePlaces s n ↔ p.1 < spriteRows s n ∧ p.2 < spriteCols s n := by
  rw [spritePlaces, List.mem_product, List.mem_range, List.mem_range]

/-- The two nested loops of R226 go through the places in order. -/
theorem drawnSprite_eq_foldl (x y : Reg) (n : Nibble) (s : State) :
    drawnSprite x y n s = (spritePlaces s n).foldl (drawAt s x y n) ⟨s.display, false⟩ := by
  change _ = (List.flatMap _ _).foldl _ _
  rw [List.foldl_flatMap, drawnSprite, drawSprite]
  simp only [drawRow, spriteBit_eq, List.foldl_map]
  rw [spriteShape_eq]
  rfl

theorem cell_drawAt (s : State) (x y : Reg) (n : Nibble) (g : Drawing) (p : Nat × Nat) (k : Nat) :
    Display.cell (drawAt s x y n g p).display k =
      if k = spriteCell s x y p.1 p.2 then xor (Display.cell g.display k) (spriteAt s n p.1 p.2)
      else Display.cell g.display k :=
  (drawBit_inside s.ext _ _ _ g (spriteX_lt s x p.2) (spriteY_lt s y p.1)).1 k

theorem hit_drawAt (s : State) (x y : Reg) (n : Nibble) (g : Drawing) (p : Nat × Nat) :
    (drawAt s x y n g p).hit = (g.hit || (spriteAt s n p.1 p.2 && Display.cell g.display (spriteCell s x y p.1 p.2))) :=
  (drawBit_inside s.ext _ _ _ g (spriteX_lt s x p.2) (spriteY_lt s y p.1)).2

/-- Bits drawn at places whose cells all differ: each inverts its own cell, and a collision is one with a cell as it
was before any of them. -/
theorem foldl_drawAt (s : State) (x y : Reg) (n : Nibble) (l : List (Nat × Nat)) (g : Drawing)
    (hl : l.Pairwise fun p q => spriteCell s x y p.1 p.2 ≠ spriteCell s x y q.1 q.2) :
    (∀ p ∈ l, Display.cell (l.foldl (drawAt s x y n) g).display (spriteCell s x y p.1 p.2) =
      xor (Display.cell g.display (spriteCell s x y p.1 p.2)) (spriteAt s n p.1 p.2)) ∧
    (∀ j, (∀ p ∈ l, j ≠ spriteCell s x y p.1 p.2) →
      Display.cell (l.foldl (drawAt s x y n) g).display j = Display.cell g.display j) ∧
    ((l.foldl (drawAt s x y n) g).hit = true ↔ g.hit = true ∨
      ∃ p ∈ l, spriteAt s n p.1 p.2 = true ∧ Display.cell g.display (spriteCell s x y p.1 p.2) = true) := by
  induction l generalizing g with
  | nil => exact ⟨nofun, fun _ _ => rfl, by simp⟩
  | cons p rest ih =>
    obtain ⟨hp, hrest⟩ := List.pairwise_cons.1 hl
    obtain ⟨hcells, hothers, hhit⟩ := ih (drawAt s x y n g p) hrest
    have hcell : ∀ q ∈ rest, Display.cell (drawAt s x y n g p).display (spriteCell s x y q.1 q.2) =
        Display.cell g.display (spriteCell s x y q.1 q.2) := fun q hq => by
      rw [cell_drawAt, if_neg (hp q hq).symm]
    rw [List.foldl_cons]
    refine ⟨fun q hq => ?_, fun j hj => ?_, ?_⟩
    · obtain rfl | hq := List.mem_cons.1 hq
      · rw [hothers _ hp, cell_drawAt, if_pos rfl]
      · rw [hcells q hq, hcell q hq]
    · obtain ⟨hjp, hjrest⟩ := List.forall_mem_cons.1 hj
      rw [hothers j hjrest, cell_drawAt, if_neg hjp]
    · rw [hhit, hit_drawAt, Bool.or_eq_true, Bool.and_eq_true, or_assoc, List.exists_mem_cons_iff]
      refine or_congr_right (or_congr_right ?_)
      exact exists_congr fun q => and_congr_right fun hq => by rw [hcell q hq]

theorem spritePlaces_pairwise (s : State) (x y : Reg) (n : Nibble) :
    (spritePlaces s n).Pairwise fun p q => spriteCell s x y p.1 p.2 ≠ spriteCell s x y q.1 q.2 := by
  have hnodup : (spritePlaces s n).Nodup := List.nodup_range.product List.nodup_range
  refine hnodup.imp_of_mem fun {p q} hp hq hne h => hne ?_
  obtain ⟨hpr, hpc⟩ := (mem_spritePlaces s n p).1 hp
  obtain ⟨hqr, hqc⟩ := (mem_spritePlaces s n q).1 hq
  obtain ⟨hr, hc⟩ := spriteCell_inj s x y n _ _ _ _ hpr hpc hqr hqc h
  exact Prod.ext hr hc

/-! ## The obligations -/

/-- Settles O37: the sprite's places have cells that all differ, so its bits are drawn each on its own. -/
theorem drawXorsSpriteOntoDisplay : Obligations.DrawXorsSpriteOntoDisplay := by
  unfold Obligations.DrawXorsSpriteOntoDisplay
  intro x y n s
  obtain ⟨hcells, hothers, hhit⟩ := foldl_drawAt s x y n (spritePlaces s n) ⟨s.display, false⟩
    (spritePlaces_pairwise s x y n)
  rw [← drawnSprite_eq_foldl] at hcells hothers hhit
  have hflag : ((s.setDisplay (drawnSprite x y n s).display).setFlag (drawnSprite x y n s).hit).getV 15 =
      flagByte (drawnSprite x y n s).hit := State.getV_setV_same _ _ _
  refine ⟨_, exec_drw x y n s, rfl, fun _ => rfl, fun k hk => State.getV_setV_other _ _ k _ hk, fun r c hr hc => ?_,
    fun j hj => ?_, fun hmet => ?_, fun hnone => ?_, spriteCell_inj s x y n⟩
  · exact hcells (r, c) ((mem_spritePlaces s n (r, c)).2 ⟨hr, hc⟩)
  · refine hothers j fun p hp => ?_
    obtain ⟨hr, hc⟩ := (mem_spritePlaces s n p).1 hp
    exact hj p.1 p.2 hr hc
  · obtain ⟨r, c, hr, hc, hbit, hcell⟩ := hmet
    rw [hflag, hhit.2 (.inr ⟨(r, c), (mem_spritePlaces s n (r, c)).2 ⟨hr, hc⟩, hbit, hcell⟩)]
    rfl
  · have hmiss : (drawnSprite x y n s).hit = false := by
      rw [← Bool.not_eq_true, hhit]
      rintro (hfalse | ⟨p, hp, hbit, hcell⟩)
      · cases hfalse
      · obtain ⟨hr, hc⟩ := (mem_spritePlaces s n p).1 hp
        cases hcell.symm.trans (hnone p.1 p.2 hr hc hbit)
    rw [hflag, hmiss]
    rfl

/-- A draw with operands other than `VF` leaves all that the next draw reads but the display. -/
theorem sprite_of_drawn (x y : Reg) (n : Nibble) (s t : State) (hx : x ≠ 15) (hy : y ≠ 15)
    (ht : t = { s with v := t.v, display := t.display }) (hv : ∀ k, k ≠ 15 → t.getV k = s.getV k) :
    spriteRows t n = spriteRows s n ∧ spriteCols t n = spriteCols s n ∧
      (∀ r c, spriteAt t n r c = spriteAt s n r c) ∧ ∀ r c, spriteCell t x y r c = spriteCell s x y r c := by
  have hvx := hv x hx
  have hvy := hv y hy
  generalize t.display = d at ht
  generalize t.v = v at ht
  subst ht
  refine ⟨rfl, rfl, fun _ _ => rfl, fun r c => ?_⟩
  simp only [spriteCell, spriteX, spriteY, hvx, hvy]

/-- Settles O38: a cell inverted twice is as it was, and the second draw meets a 1 where the first met a 0. -/
theorem drawTwiceRestoresDisplay : Obligations.DrawTwiceRestoresDisplay := by
  unfold Obligations.DrawTwiceRestoresDisplay
  intro x y n s t hx hy hdraw
  obtain ⟨t', hdraw', hframe, -, hv, hcells, hothers, -⟩ := drawXorsSpriteOntoDisplay x y n s
  cases hdraw.symm.trans hdraw'
  obtain ⟨u, hu, -, -, -, hcells', hothers', hmet, hnone, -⟩ := drawXorsSpriteOntoDisplay x y n t
  obtain ⟨hrows, hcols, hat, hcell⟩ := sprite_of_drawn x y n s t hx hy hframe hv
  simp only [hrows, hcols, hat, hcell] at hcells' hothers' hmet hnone
  refine ⟨u, hu, fun j => ?_, fun hone => ?_, ?_⟩
  · by_cases hj : ∃ r c, r < spriteRows s n ∧ c < spriteCols s n ∧ j = spriteCell s x y r c
    · obtain ⟨r, c, hr, hc, rfl⟩ := hj
      rw [hcells' r c hr hc, hcells r c hr hc, Bool.xor_assoc, Bool.xor_self, Bool.xor_false]
    · have hout : ∀ r c, r < spriteRows s n → c < spriteCols s n → j ≠ spriteCell s x y r c :=
        fun r c hr hc hjc => hj ⟨r, c, hr, hc, hjc⟩
      rw [hothers' j hout, hothers j hout]
  · by_contra hall
    have hzero : u.getV 15 = 0 := hnone fun r c hr hc hbit => by
      have hset : Display.cell s.display (spriteCell s x y r c) = true := by
        by_contra hclear
        exact hall ⟨r, c, hr, hc, hbit, Bool.eq_false_of_not_eq_true hclear⟩
      rw [hcells r c hr hc, hset, hbit]
      rfl
    exact absurd (hone.symm.trans hzero) (by decide)
  · rintro ⟨r, c, hr, hc, hbit, hclear⟩
    exact hmet ⟨r, c, hr, hc, hbit, by rw [hcells r c hr hc, hclear, hbit]; rfl⟩

/-- Settles O39: the scrolls and a sprite stay in the region, and no other instruction but CLS writes the display. -/
theorem hiddenCellsStay : Obligations.HiddenCellsStay := by
  unfold Obligations.HiddenCellsStay
  intro i s t hext hcls h j hj
  have hregion : widthOf s.ext * heightOf s.ext ≤ j := by rw [hext]; exact hj
  have w := exec_writesOnlyNamed i s t h
  cases i with
  | cls => exact absurd rfl hcls
  | scd n =>
    obtain ⟨t', h', -, -, hstay⟩ := scrollDownMovesRows n s
    cases h.symm.trans h'
    exact hstay j hregion
  | scr =>
    obtain ⟨⟨t', h', -, -, hstay⟩, -⟩ := sideScrollsMoveColumns s
    cases h.symm.trans h'
    exact hstay j hregion
  | scl =>
    obtain ⟨-, t', h', -, -, hstay⟩ := sideScrollsMoveColumns s
    cases h.symm.trans h'
    exact hstay j hregion
  | drw x y n =>
    obtain ⟨t', h', -, -, -, -, hothers, -⟩ := drawXorsSpriteOntoDisplay x y n s
    cases h.symm.trans h'
    exact hothers j fun r c _ _ => Nat.ne_of_gt (Nat.lt_of_lt_of_le (spriteCell_lt s x y r c) hregion)
  | _ => rw [w.display rfl]

end Sys2Proof.Machine
end

section
/-! The host (60_exceptions.md R291, R292, R325, 70_reset_and_hazards.md R320 to R326): what reset and `init` leave,
what `load` writes and when it is refused, what is refused before `init` and without a poller, and what a read shows. -/

namespace Sys2Proof.Machine

/-! ## Memory after init -/

/-- A byte of an empty list of cells is that of the table of R321, with the large font at `EXT_FONT_BASE`. -/
theorem unlisted_eq_byteAfterInit (p : Parameters) (a : Addr) :
    Memory.unlisted p.extFontBase a.toNat = byteAfterInit p a := by
  have hoffset : largeFontOffset p.extFontBase a.toNat = (a - p.extFontBase).toNat := by
    rw [largeFontOffset, BitVec.ofNat_toNat, BitVec.setWidth_eq]
  have hsmall : (fontBase ≤ a.toNat ∧ a.toNat < fontBase + 16 * fontGlyphBytes) ↔
      (0x050 ≤ a.toNat ∧ a.toNat ≤ 0x09F) := by
    simp only [fontBase, fontGlyphBytes]
    omega
  simp only [Memory.unlisted, hoffset, hsmall]
  rfl

/-- With `EXT_FONT_BASE` at 0x0A0 the two fonts stand side by side. -/
theorem byteAfterInit_parametersTaken (a : Addr) : byteAfterInit parametersTaken a =
    if 0x050 ≤ a.toNat ∧ a.toNat ≤ 0x09F then Config.fontSmall (a.toNat - 0x050)
    else if 0x0A0 ≤ a.toNat ∧ a.toNat ≤ 0x13F then Config.fontLarge (a.toNat - 0x0A0) else 0 := by
  have ha := a.isLt
  have hbase : (a - parametersTaken.extFontBase).toNat = (4096 - 0x0A0 + a.toNat) % 4096 := BitVec.toNat_sub _ _
  rw [byteAfterInit, hbase]
  by_cases hlarge : 0x0A0 ≤ a.toNat ∧ a.toNat ≤ 0x13F
  · rw [if_pos (by omega), if_neg (by omega), if_pos hlarge]
    exact congrArg Config.fontLarge (by omega)
  · rw [if_neg (by omega), if_neg hlarge]

/-- Settles O46: the empty list of cells reads as the fonts, and the other elements are as written down. -/
theorem resetLeavesTableOfR321 : Obligations.ResetLeavesTableOfR321 := by
  unfold Obligations.ResetLeavesTableOfR321
  refine ⟨fun a => ?_, fun k => Vector.getElem_replicate _, rfl, rfl, fun k => Vector.getElem_replicate _, rfl, rfl,
    rfl, fun j => rfl, rfl, rfl, fun k => Vector.getElem_replicate _, rfl, rfl, rfl, rfl⟩
  exact (unlisted_eq_byteAfterInit parametersTaken a).trans (byteAfterInit_parametersTaken a)

/-- Settles O47: `init` takes nothing over but what is the host's own, whatever state it starts from. -/
theorem initFromAnyState : Obligations.InitFromAnyState := by
  unfold Obligations.InitFromAnyState
  intro s
  exact ⟨initMachine s, rfl, rfl, unlisted_eq_byteAfterInit s.params, rfl, rfl, rfl, rfl, rfl, rfl, rfl, rfl, rfl, rfl,
    rfl, rfl, rfl, rfl, rfl, rfl, rfl, rfl, rfl, rfl, rfl⟩

/-! ## load -/

theorem romWellFormed_iff (bytes : List Byte) : romWellFormed bytes = true ↔ bytes.length ≤ 3584 := decide_eq_true_iff

/-- How far an address lies above the program's start. -/
theorem toNat_sub_programStart (a : Addr) :
    (a - BitVec.ofNat 12 programStart).toNat = (4096 - 0x200 + a.toNat) % 4096 := BitVec.toNat_sub _ _

/-- Settles O48: an admitted image of at most 3584 bytes is written from 0x200 on without a wrap. -/
theorem loadCopiesProgram : Obligations.LoadCopiesProgram := by
  unfold Obligations.LoadCopiesProgram
  refine fun bytes s => ⟨fun hphase hlen => ?_, fun hphase hlen => ?_, fun hphase => ?_⟩
  · have hread := fun a => State.readByte_writeBytes s (BitVec.ofNat 12 programStart) a bytes (by omega)
    simp only [toNat_sub_programStart] at hread
    refine ⟨s.writeBytes (BitVec.ofNat 12 programStart) bytes, ?_, fun k hk => ?_, s.writeBytes_frame _ bytes,
      fun a ha => ?_⟩
    · rw [transact, loadRom, hphase]
      exact if_pos ((romWellFormed_iff bytes).2 hlen)
    · have hoffset : (4096 - 0x200 + (BitVec.ofNat 12 (0x200 + k)).toNat) % 4096 = k := by
        rw [BitVec.toNat_ofNat]
        omega
      simp only [hread, hoffset, dif_pos hk]
    · have haddr := a.isLt
      rw [hread, dif_neg (by omega)]
  · rw [transact, loadRom, hphase]
    exact if_neg fun h => absurd ((romWellFormed_iff bytes).1 h) (Nat.not_le.2 hlen)
  · rw [transact, loadRom, hphase]

/-! ## Refusals and reads -/

theorem afterInit_of_beforeInit (s t : State) (h : s.phase = .beforeInit) : afterInit s t = .refused .beforeInit := by
  rw [afterInit, if_pos h]

theorem afterInit_of_initialised (s t : State) (h : s.phase ≠ .beforeInit) : afterInit s t = .next t := by
  rw [afterInit, if_neg h]

theorem hostRead_of_initialised (port : Port) (s : State) (h : s.phase ≠ .beforeInit) :
    hostRead port s = .ok (portValue port s) := by
  rw [hostRead, if_neg h]

/-- Settles O49: each transaction looks at the boot phase first, a step then at the poller. -/
theorem refusalsBeforeInitAndPoller : Obligations.RefusalsBeforeInitAndPoller := by
  unfold Obligations.RefusalsBeforeInitAndPoller
  refine ⟨fun s bytes inputs d port hphase => ⟨?_, ?_, ?_, ?_, ?_⟩, fun s inputs hphase hpoller => ?_,
    fun s => ⟨rfl, rfl⟩⟩
  · rw [transact, loadRom, hphase]
  · exact stepTransaction_of_beforeInit inputs s hphase
  · exact afterInit_of_beforeInit s _ hphase
  · exact afterInit_of_beforeInit s s hphase
  · rw [hostRead, if_pos hphase]
  · exact stepTransaction_of_noPoller inputs s hphase hpoller

/-- A pixel in the geometry of the mode, 0 outside it (R212, D25). -/
theorem State.pixel_eq (s : State) (c r : Nat) : s.pixel c r =
    (if s.ext then decide (c < 128) && decide (r < 64) && s.display.cell (r * 128 + c)
     else decide (c < 64) && decide (r < 32) && s.display.cell (r * 64 + c)) := by
  rw [State.pixel, Display.getPixel]
  cases s.ext <;> simp [widthOf, heightOf, ← Bool.decide_and, Bool.if_false_right]

/-- Settles O50: a read is the value of the port, and leaves the state. -/
theorem readsShowStateAndChangeNothing : Obligations.ReadsShowStateAndChangeNothing := by
  unfold Obligations.ReadsShowStateAndChangeNothing
  intro s port c r hphase
  simp only [hostRead_of_initialised _ s hphase]
  refine ⟨afterInit_of_initialised s s hphase, rfl, rfl, rfl, rfl, ?_, ?_⟩
  · rw [portValue, widthOf, heightOf]
    cases s.ext <;> rfl
  · rw [portValue, State.pixel_eq]

end Sys2Proof.Machine
end
